-- ==== Sys2Proof/Word.lean ====
section
/-! DEFINITION. The plain value type of the block: a byte (R9). A parameter and the magic number are
natural numbers, because their widths are parameters of the instance (R7). -/

namespace Sys2Proof

/-- A byte: 8 bits, values 0x00 to 0xFF (R9). -/
abbrev Byte := BitVec 8

end Sys2Proof
end

