-- ==== Sys2Proof/Config.lean ====
section
/-! DEFINITION. What one instance of the block fixes (the parameters of R7), the named code values
of R80 to R82, the input ports of one cycle, and the free draw of an input nobody has fixed. -/

namespace Sys2Proof

/-- The checksum algorithm of an instance: the two that the source allows, "additive or XOR fold"
(M1 of 93_implementation_defined.md, D15). -/
inductive ChecksumAlg where
  /-- The 8-bit XOR fold, the spec's own choice (R111). -/
  | xorFold
  /-- The byte-sum modulo 256 (R172). -/
  | byteSum
  deriving DecidableEq, Repr

/-- The byte order of the multi-byte fields of a frame, the magic number and each parameter (R7, M6 of
93_implementation_defined.md; DEDUCED, log entry 20). -/
inductive ByteOrder where
  /-- The least significant byte has the lowest frame offset: the order of R43, and the default. -/
  | little
  /-- The most significant byte has the lowest frame offset: another value of M6's parameter. -/
  | big
  deriving DecidableEq, Repr

/-- The parameters of one instance of the block (R7, M1 and M3 to M7 of 93_implementation_defined.md). -/
structure Config where
  /-- PARAM_COUNT, written C. -/
  paramCount : Nat
  /-- PARAM_LEN: the bytes of one parameter in a frame. Its lanes on the ports have 8 bits for each
  (DEDUCED, log entry 11). -/
  paramLen   : Nat
  /-- DATA_LEN, written D. -/
  dataLen    : Nat
  /-- RX_LANES, written W. -/
  rxLanes    : Nat
  /-- MAGIC_LEN: the bytes of the magic number in a frame. -/
  magicLen   : Nat
  /-- MAGIC. -/
  magic      : Nat
  /-- The byte order of multi-byte fields. -/
  byteOrder  : ByteOrder
  /-- The checksum algorithm. -/
  checksum   : ChecksumAlg
  /-- The packetType whose data bytes SEND keeps (R110). -/
  ptMessage  : Byte
  /-- The packetType of a handshake reply that may succeed (R144). -/
  ptResponse : Byte
  /-- The packetType of the HELLO frame (R141). -/
  ptHello    : Byte
  /-- The command byte of the HELLO frame (R141). -/
  cmdStop    : Byte
  /-- The command byte of a handshake reply that succeeds (R144). -/
  respOk     : Byte
  deriving DecidableEq, Repr

/-! packetType codes (R80). -/

def ptCommandCode  : Byte := 0
def ptResponseCode : Byte := 1
def ptErrorCode    : Byte := 2
def ptMessageCode  : Byte := 3
def ptHelloCode    : Byte := 4

/-! Response and error kind codes (R81). -/

def respOkCode          : Byte := 0
def respStatusCode      : Byte := 1
def respBadPacketCode   : Byte := 2
def respBadChecksumCode : Byte := 3
def respBadCommandCode  : Byte := 4
def respBadResponseCode : Byte := 5

/-! Command kind codes (R82). -/

def cmdForwardCode    : Byte := 0
def cmdReverseCode    : Byte := 1
def cmdTurnLeftCode   : Byte := 2
def cmdTurnRightCode  : Byte := 3
def cmdStopCode       : Byte := 4
def cmdGetStatsCode   : Byte := 5
def cmdClearStatsCode : Byte := 6

/-- The instance with every parameter at its default (R7, R80 to R82): C = 10, D = 32, L = W = 79. -/
def Config.standard : Config where
  paramCount := 10
  paramLen   := 4
  dataLen    := 32
  rxLanes    := 79
  magicLen   := 4
  magic      := 0xFCFDFEFF
  byteOrder  := .little
  checksum   := .xorFold
  ptMessage  := ptMessageCode
  ptResponse := ptResponseCode
  ptHello    := ptHelloCode
  cmdStop    := cmdStopCode
  respOk     := respOkCode

/-- The input ports as they stand in one cycle (R60, R66, R67). A lane of `rx_bytes` that
`rxBytes` does not list carries 0x00 (DESIGN CHOICE, log entry 8). -/
structure CycleIn where
  rst      : Bool
  cancelIn : Bool
  /-- The input bundle `cmdw[cmdwBits-1:0]` as a number (R60). -/
  cmdw     : Nat
  /-- `rx_count`: how many bytes the transport returns this cycle (R66). -/
  rxCount  : Nat
  /-- `rx_bytes`, lane 0 first in stream order (R66). -/
  rxBytes  : List Byte
  deriving DecidableEq, Repr, Inhabited

/-- FREE VALUE: what the outside agents present in a cycle for which State holds no stimulus. R197
makes it a free draw of the CALLER, the TRANSPORT and the CANCELLER, so it has no body (DESIGN CHOICE, log entry 3). -/
opaque Config.freeInput : Nat → CycleIn

end Sys2Proof
end

