-- ==== Sys2Proof/Syntax.lean ====
section
/-! DEFINITION. The operations of spec/opcode_table.json, one constructor a row: the op values of R61
and the two control pins the table lists as rows (R67, R161, R165). -/

namespace Sys2Proof

/-- What the outside presents in one cycle: an op on `op[2:0]`, or a control pin. -/
inductive Instr where
  /-- `op = 000` (R164). -/
  | nop
  /-- `op = 001` (R90). -/
  | recv
  /-- `op = 010` with the operand fields `s_ptype`, `s_cmd`, `s_nparams`, `s_param`, `s_data` (R62 to R65, R120). -/
  | send (ptype cmd nparams : Byte) (params : List Nat) (data : List Byte)
  /-- `op = 011` (R140). -/
  | hshake
  /-- `op = 1xx`, with `code` the two low bits (R166). -/
  | reserved (code : BitVec 2)
  /-- `rst = 1`, whatever `op` holds (R161). -/
  | rst
  /-- `cancel_in = 1` with no operation presented (R165); beside another op the pin is an input of that op's
  cycle (DESIGN CHOICE, log entry 5). -/
  | cancel
  deriving DecidableEq, Repr

end Sys2Proof
end

