-- ==== Sys2Proof/WellFormed.lean ====
section
/-! DEFINITION. Which operations an instance can be given: SEND carries exactly C parameter lanes,
each a number its lane can hold, and D data lanes (R60, R64, R65). Every value of every lane, and every
other operation, is legal (R76). -/

namespace Sys2Proof

/-- The operand lanes are those of the instance's `cmdw`. -/
def Instr.wellFormed (c : Config) : Instr → Bool
  | .nop => true
  | .recv => true
  | .send _ _ _ params data => params.length == c.paramCount && data.length == c.dataLen
      && params.all fun v => decide (v < 2 ^ (8 * c.paramLen))
  | .hshake => true
  | .reserved _ => true
  | .rst => true
  | .cancel => true

end Sys2Proof
end

