-- ==== Sys2Proof/Decode.lean ====
section
/-! DEFINITION. Decoding the command word `cmdw` and the pins of a cycle into an operation, and after
it the encoder (R60 to R65, R67, R78). -/

namespace Sys2Proof

/-- Why a number is no command word. -/
inductive DecodeError where
  /-- The number has a bit above `cmdw[cmdwBits-1]`: no value of the port (R60). -/
  | wordTooWide
  deriving DecidableEq, Repr

/-- The field `w[lo+len-1 : lo]` as a natural number (R9). -/
def bits (w lo len : Nat) : Nat := (w >>> lo) % 2 ^ len

/-- The bits of one parameter lane: 32 at PARAM_LEN = 4 (R60, R7; DEDUCED, log entry 11). -/
def Config.laneBits (c : Config) : Nat := 8 * c.paramLen

/-- The width of the input bundle `cmdw` (R60). -/
def Config.cmdwBits (c : Config) : Nat := 27 + c.laneBits * c.paramCount + 8 * c.dataLen

/-- `n` lanes of `width` bits each, lane 0 at bit `lo` (R60). -/
def lanes (w lo width n : Nat) : List Nat := (List.range n).map fun i => bits w (lo + width * i) width

/-- The operation a command word holds (R60, R61): every value of `op[2:0]` decodes. -/
def decode (c : Config) (w : Nat) : Except DecodeError Instr :=
  if w >>> c.cmdwBits ≠ 0 then .error .wordTooWide
  else if bits w 0 3 = 0 then .ok .nop
  else if bits w 0 3 = 1 then .ok .recv
  else if bits w 0 3 = 2 then
    .ok (.send (BitVec.ofNat 8 (bits w 3 8)) (BitVec.ofNat 8 (bits w 11 8)) (BitVec.ofNat 8 (bits w 19 8))
      (lanes w 27 c.laneBits c.paramCount)
      ((lanes w (27 + c.laneBits * c.paramCount) 8 c.dataLen).map (BitVec.ofNat 8)))
  else if bits w 0 3 = 3 then .ok .hshake
  else .ok (.reserved (BitVec.ofNat 2 (bits w 0 2)))

/-- The operation of a cycle: `rst` overrides the op field (R161), and `cancel_in` stands alone only
where no operation is presented (R60, R165). -/
def decodeCycle (c : Config) (inp : CycleIn) : Except DecodeError Instr :=
  match decode c inp.cmdw with
  | .error e => .error e
  | .ok op =>
    if inp.rst then .ok .rst
    else if op = .nop ∧ inp.cancelIn = true then .ok .cancel
    else .ok op

/-- The operation the decoder reads from a word of spec/opcode_table.json, at the default instance. -/
def decodeTableWord (nbits w : Nat) : Option Instr :=
  match decode Config.standard (w % 2 ^ nbits) with
  | .ok i => some i
  | .error _ => none

/-- Lanes of `width` bits laid side by side, the first at the low end (R60). -/
def packLanes (width : Nat) : List Nat → Nat
  | [] => 0
  | v :: vs => v % 2 ^ width + 2 ^ width * packLanes width vs

/-- The command word of an operation (R60, R61). A pin is no op: its cycle presents NOP. -/
def encode (c : Config) : Instr → Nat
  | .nop => 0
  | .recv => 1
  | .send ptype cmd nparams params data =>
    2 + 2 ^ 3 * ptype.toNat + 2 ^ 11 * cmd.toNat + 2 ^ 19 * nparams.toNat 
      + 2 ^ 27 * packLanes c.laneBits params
      + 2 ^ (27 + c.laneBits * c.paramCount) * packLanes 8 (data.map BitVec.toNat)
  | .hshake => 3
  | .reserved code => 4 + code.toNat
  | .rst => 0
  | .cancel => 0

/-- The pins and the command word that present an operation, with no byte received (R67, R78). -/
def encodeCycle (c : Config) (i : Instr) : CycleIn where
  rst      := i = .rst
  cancelIn := i = .cancel
  cmdw     := encode c i
  rxCount  := 0
  rxBytes  := []

end Sys2Proof
end

