-- ==== Sys2Proof/Machine/State.lean ====
section
/-! DEFINITION. The block's state (R20), its outputs (R68 to R72), why a cycle can stop, and the state
after reset (R200). -/

namespace Sys2Proof.Machine

/-- Why the machine stops with a fault. -/
inductive Fault where
  /-- Raised by a poll that finds `fill >= L`. No reachable state has it (R22), and R93 then has no
  request `L - fill` to make (DEDUCED, log entry 9). Safe: the machine stops where the rules give no effect. -/
  | cursorOutOfRange
  deriving DecidableEq, Repr

/-- Why a cycle has no step. -/
inductive Refusal where
  /-- Raised by `exec` for an operation that has no meaning yet. Safe. -/
  | notModelled (mnemonic : String)
  /-- Raised by every cycle whose `rx_count` exceeds its `rx_req_max`: the spec's own `refuse RX_OVERRUN` (R170,
  log entry 13). Safe. -/
  | rxOverrun
  /-- Raised by `step` when the stimulus holds a number with more bits than the port `cmdw` has: no input of the
  hardware (R60; DEDUCED, log entry 7). Safe. -/
  | wordTooWide
  deriving DecidableEq, Repr

/-- `fa_state` (R20, R21). -/
inductive FaState where
  | idle
  | active
  deriving DecidableEq, Repr

/-- `hs_state` (R20, R25). -/
inductive HsState where
  | idle
  | awaiting
  | established
  | failed
  deriving DecidableEq, Repr

/-- A decoded Packet (R13, R117). -/
structure Packet where
  ptype  : Byte
  cmd    : Byte
  params : List Nat
  data   : List Byte
  deriving DecidableEq, Repr

/-- The value of `cpl_verdict` (R83). -/
inductive Verdict where
  | ok
  | badPacket
  | badChecksum
  | cancelled
  deriving DecidableEq, Repr

/-- How a receive ends: OK is the only ending that carries a Packet (R70, R114, R92). -/
inductive RxResult where
  | ok (pkt : Packet)
  | badPacket
  | badChecksum
  | cancelled
  deriving DecidableEq, Repr

/-- The value of `ack_code` (R68). -/
inductive AckCode where
  | started
  | sent
  | errParamCount
  | errBusy
  | errState
  | errIllegal
  deriving DecidableEq, Repr

/-- The value of `hs_reason` (R83). -/
inductive HsReason where
  | none
  | wrongType
  | wrongCmd
  | badPacket
  | badChecksum
  | cancelled
  deriving DecidableEq, Repr

/-- The completion channel in a cycle that ends a receive (R70, R71). -/
inductive Completion where
  /-- RECV_DONE: the verdict, and the Packet when it is OK. -/
  | recvDone (result : RxResult)
  /-- HS_DONE: `cpl_verdict`, `hs_established`, `hs_reason`, and `hs_obs_type` when `hs_obs_valid = 1`. -/
  | hsDone (verdict : Verdict) (established : Bool) (reason : HsReason) (observed : Option Byte)
  deriving DecidableEq, Repr

/-- The output ports in one cycle (R66, R68 to R72). An event channel that is not valid is `none`. -/
structure Outputs where
  ack         : Option AckCode
  tx          : Option (List Byte)
  cpl         : Option Completion
  rxReqMax    : Nat
  stBusy      : Bool
  stHs        : HsState
  stCancelled : Bool
  stFill      : Nat
  deriving DecidableEq, Repr

/-- The frame buffer `buf[0..L)` (R23, R40): (index, byte) pairs in rising order, no entry equal to
what an unlisted index reads as. -/
abbrev Memory := List Host.Cell

/-- The machine at the start of a cycle. -/
structure State where
  /-- `fa_state` (R21). -/
  faState  : FaState
  /-- `fill`, the cursor (R22); a count, at most L-1 in every reachable state. -/
  fill     : Nat
  /-- `buf[0..L)` (R23). -/
  buf      : Memory
  /-- `cancel_q`, the sticky cancellation flag (R24). -/
  cancelQ  : Bool
  /-- `hs_state` (R25). -/
  hsState  : HsState
  /-- The model's own (DESIGN CHOICE, log entry 1): the parameters of this instance, which nothing changes (R7, R32). -/
  cfg      : Config
  /-- The model's own (DESIGN CHOICE, log entry 2): the input ports of the cycles to come, the next first (R32, R198). -/
  stimulus : List CycleIn
  /-- The model's own (DESIGN CHOICE, log entry 3): how many cycles have run; it numbers the free draws. -/
  cycle    : Nat
  /-- The model's own (DESIGN CHOICE, log entry 4): the output ports as the last cycle drove them (R207). -/
  out      : Outputs
  deriving DecidableEq, Repr

/-- The state after reset (R200), of the default instance, with no stimulus waiting and no cycle run. -/
def State.reset : State where
  faState  := .idle
  fill     := 0
  buf      := []
  cancelQ  := false
  hsState  := .idle
  cfg      := Config.standard
  stimulus := []
  cycle    := 0
  out      := { ack := none, tx := none, cpl := none, rxReqMax := 0,
                stBusy := false, stHs := .idle, stCancelled := false, stFill := 0 }

end Sys2Proof.Machine
end

