-- ==== Sys2Proof/Machine/Ops.lean ====
section
/-! DEFINITION. The operations the meanings share: the sizes of a frame, the frame buffer, the multi-byte fields of a frame, the input
ports of the cycle, the writes a cycle makes, and `raise`, the block's whole error mechanism (R10, R186). -/

namespace Sys2Proof

/-! ## Sizes and offsets of a frame (R7, R73) -/

/-- PAYLOAD_PACKET_SIZE, written P: the Packet bytes of a frame. -/
def Config.payloadSize (c : Config) : Nat := 2 + c.paramLen * c.paramCount + c.dataLen

/-- COMMS_PACKET_SIZE, written L: the bytes of a frame. -/
def Config.frameSize (c : Config) : Nat := c.magicLen + c.payloadSize + 1

/-- FILL_BITS: the smallest b with 2^b > L. -/
def Config.fillBits (c : Config) : Nat := Nat.log2 c.frameSize + 1

/-- The frame offset of parameter i: `6 + 4*i` where both lengths are 4. -/
def Config.paramOffset (c : Config) (i : Nat) : Nat := c.magicLen + 2 + c.paramLen * i

/-- The frame offset of data byte j: `6 + 4*C + j` where both lengths are 4. -/
def Config.dataOffset (c : Config) (j : Nat) : Nat := c.magicLen + 2 + c.paramLen * c.paramCount + j

end Sys2Proof

namespace Sys2Proof.Machine

/-! ## The frame buffer (R40) -/

/-- What an index that `buf` does not list reads as: the reset contents of R200. -/
def Memory.unlisted : Byte := 0x00

/-- Whether the entries' indices rise strictly from `lo` on and none holds the unlisted value. -/
def Memory.wfFrom : Nat → Memory → Bool
  | _, [] => true
  | lo, (a, b) :: rest => decide (lo ≤ a) && decide (b ≠ Memory.unlisted) && Memory.wfFrom (a + 1) rest

/-- The canonical form: indices strictly rising, no entry equal to the unlisted value. -/
def Memory.wf (m : Memory) : Bool := Memory.wfFrom 0 m

/-- Every listed index lies in `buf[0..size)`. -/
def Memory.within (size : Nat) (m : Memory) : Bool := m.all fun cell => decide (cell.1 < size)

/-- The byte `buf[a]`. -/
def Memory.get : Memory → Nat → Byte
  | [], _ => Memory.unlisted
  | (x, b) :: rest, a => if a = x then b else Memory.get rest a

/-- `buf` with the byte at `a` replaced, in canonical form. -/
def Memory.set : Memory → Nat → Byte → Memory
  | [], a, b => if b = Memory.unlisted then [] else [(a, b)]
  | (x, v) :: rest, a, b =>
    if a < x then (if b = Memory.unlisted then (x, v) :: rest else (a, b) :: (x, v) :: rest)
    else if a = x then (if b = Memory.unlisted then rest else (a, b) :: rest)
    else (x, v) :: Memory.set rest a b

/-- `MemRead(a, n)`: the bytes `buf[a..a+n)` (R10). -/
def Memory.read (m : Memory) (a n : Nat) : List Byte := (List.range n).map fun k => m.get (a + k)

/-- `MemWrite(a, n, v)`: the bytes of `v` go to `buf[a..a+n)`, the first to `a` (R10, R42). -/
def Memory.write : Memory → Nat → List Byte → Memory
  | m, _, [] => m
  | m, a, b :: bs => Memory.write (m.set a b) (a + 1) bs

/-! ## Multi-byte fields of a frame (R10, R43) -/

/-- The `n` bytes of a field value, least significant first: `le32(v)` is `leBytes 4 v`. -/
def leBytes : Nat → Nat → List Byte
  | 0, _ => []
  | n + 1, v => BitVec.ofNat 8 v :: leBytes n (v / 256)

/-- The value of little-endian bytes: `unle32(s)` for four of them. -/
def unleBytes : List Byte → Nat
  | [] => 0
  | b :: bs => b.toNat + 256 * unleBytes bs

/-- The `n` bytes of a field value in the instance's order: little-endian by R43, reversed where M6's
parameter is big-endian. -/
def fieldBytes : ByteOrder → Nat → Nat → List Byte
  | .little, n, v => leBytes n v
  | .big, n, v => (leBytes n v).reverse

/-- The value of a field's bytes in the instance's order. -/
def fieldValue : ByteOrder → List Byte → Nat
  | .little, bs => unleBytes bs
  | .big, bs => unleBytes bs.reverse

/-! ## The input ports of the cycle -/

/-- The input ports of the cycle about to run: the next stimulus, or a free draw of a value the ports
can carry where none waits (R197). -/
def State.input (s : State) : CycleIn :=
  match s.stimulus with
  | inp :: _ => inp
  | [] =>
    let drawn := Config.freeInput s.cycle
    { drawn with cmdw := drawn.cmdw % 2 ^ s.cfg.cmdwBits }

/-- `rx_bytes[0..rx_count)`: the bytes a cycle receives; later lanes are ignored (R66). -/
def received (inp : CycleIn) : List Byte := (List.range inp.rxCount).map fun j => inp.rxBytes.getD j 0

/-- The bytes the cycle about to run receives. -/
def State.chunk (s : State) : List Byte := received s.input

/-! ## What a cycle writes -/

/-- The output ports before any rule drives one, from the start-of-cycle state (R171, R72). -/
def State.defaultOutputs (s : State) : Outputs where
  ack         := none
  tx          := none
  cpl         := none
  rxReqMax    := 0
  stBusy      := s.faState = .active
  stHs        := s.hsState
  stCancelled := s.cancelQ
  stFill      := s.fill

/-- The state a cycle starts to build: default outputs, the inputs consumed, and nothing else changed. -/
def State.beginCycle (s : State) : State :=
  { s with stimulus := s.stimulus.tail, cycle := s.cycle + 1, out := s.defaultOutputs }

def State.setFa (t : State) (v : FaState) : State := { t with faState := v }
def State.setFill (t : State) (v : Nat) : State := { t with fill := v }
def State.setBuf (t : State) (v : Memory) : State := { t with buf := v }
def State.setCancel (t : State) (v : Bool) : State := { t with cancelQ := v }
def State.setHs (t : State) (v : HsState) : State := { t with hsState := v }
/-- Drives `rx_req_max` (R66). -/
def State.setReq (t : State) (v : Nat) : State := { t with out := { t.out with rxReqMax := v } }
/-- Drives the transmit port with one frame (R69). -/
def State.setTx (t : State) (v : List Byte) : State := { t with out := { t.out with tx := some v } }
/-- Drives the completion channel (R70, R71). -/
def State.setCpl (t : State) (v : Completion) : State := { t with out := { t.out with cpl := some v } }
/-- Drives the ack channel (R68). -/
def State.setAck (t : State) (v : AckCode) : State := { t with out := { t.out with ack := some v } }

/-- `raise E` (R10): an op's error is a code on the ack channel and nothing else. The block has no
trap entry and no trap return (R186, R187). -/
def State.raise (t : State) (e : AckCode) : State := t.setAck e

end Sys2Proof.Machine
end

