-- ==== Sys2Proof/Machine/Operands.lean ====
section
/-! DEFINITION. The operand forms of SEND: which lanes reach the packet (R63 to R65, R110). -/

namespace Sys2Proof.Machine

/-- `q[i] := (i < n) ? p[i] : 0` for i in 0..C-1 (R110, R64). -/
def paddedParams (c : Config) (n : Nat) (p : List Nat) : List Nat :=
  (List.range c.paramCount).map fun i => if i < n then p.getD i 0 else 0

/-- The D data bytes of the packet: `s_data` for a MESSAGE packet, else zeros (R110, R65). -/
def packetData (c : Config) (ptype : Byte) (d : List Byte) : List Byte :=
  (List.range c.dataLen).map fun j => if ptype = c.ptMessage then d.getD j 0 else 0x00

/-- `s_nparams > C` (R63, R113). -/
def tooManyParams (c : Config) (n : Nat) : Bool := decide (c.paramCount < n)

end Sys2Proof.Machine
end

