-- ==== Sys2Proof/Machine/Codec.lean ====
section
/-! DEFINITION. The Packet Codec: checksum, Serialize, Deserialize and the HELLO frame (R110 to R117, R141). -/

namespace Sys2Proof.Machine

/-- One step of the fold: XOR by R111, or a sum modulo 256 by R172. -/
def fold : ChecksumAlg → Byte → Byte → Byte
  | .xorFold, a, b => a ^^^ b
  | .byteSum, a, b => a + b

/-- The checksum of a byte sequence, 0x00 if it is empty (R111). -/
def checksum (alg : ChecksumAlg) : List Byte → Byte
  | [] => 0x00
  | b :: bs => fold alg b (checksum alg bs)

/-- The bytes of each parameter, in order (R110). -/
def paramBytes (c : Config) (ps : List Nat) : List Byte := ps.flatMap (fieldBytes c.byteOrder c.paramLen)

/-- The P Packet bytes; defined for `n <= C` (R110). -/
def encodePacket (c : Config) (ptype cmd : Byte) (n : Nat) (p : List Nat) (d : List Byte) : List Byte :=
  [ptype, cmd] ++ paramBytes c (paddedParams c n p) ++ packetData c ptype d

/-- A frame around a payload: magic, payload, checksum (R73, R112). -/
def envelope (c : Config) (payload : List Byte) : List Byte :=
  fieldBytes c.byteOrder c.magicLen c.magic ++ payload ++ [checksum c.checksum payload]

/-- Why Serialize fails. -/
inductive SerializeError where
  /-- `n > C` (R113). -/
  | invalidParameterCount
  deriving DecidableEq, Repr

/-- Serialize: a Wire Envelope of L bytes, or InvalidParameterCount (R112, R113). -/
def serialize (c : Config) (ptype cmd : Byte) (n : Nat) (p : List Nat) (d : List Byte) :
    Except SerializeError (List Byte) :=
  if tooManyParams c n then .error .invalidParameterCount
  else .ok (envelope c (encodePacket c ptype cmd n p d))

/-- The payload of a frame: `F[4..L-1)` at MAGIC_LEN = 4 (R114). -/
def payloadOf (c : Config) (f : List Byte) : List Byte := (f.drop c.magicLen).take c.payloadSize

/-- Parameter i of a frame: `unle32(F[6+4*i .. 10+4*i))` at the defaults (R117). -/
def paramAt (c : Config) (f : List Byte) (i : Nat) : Nat :=
  fieldValue c.byteOrder ((f.drop (c.paramOffset i)).take c.paramLen)

/-- The Packet at the fixed offsets of a frame (R117). -/
def decodeFields (c : Config) (f : List Byte) : Packet where
  ptype  := f.getD c.magicLen 0
  cmd    := f.getD (c.magicLen + 1) 0
  params := (List.range c.paramCount).map (paramAt c f)
  data   := (List.range c.dataLen).map fun j => f.getD (c.dataOffset j) 0

/-- Deserialize a frame of L bytes: the magic, then the checksum, then the fields (R114 to R117). -/
def deserialize (c : Config) (f : List Byte) : RxResult :=
  if f.take c.magicLen ≠ fieldBytes c.byteOrder c.magicLen c.magic then .badPacket
  else if checksum c.checksum (payloadOf c f) ≠ f.getD (c.frameSize - 1) 0 then .badChecksum
  else .ok (decodeFields c f)

/-- `Serialize(PT_HELLO, CMD_STOP, 0, [0]*C, [0x00]*D)` (R141); n = 0 never exceeds C. -/
def helloFrame (c : Config) : List Byte :=
  envelope c (encodePacket c c.ptHello c.cmdStop 0 (List.replicate c.paramCount 0) (List.replicate c.dataLen 0x00))

end Sys2Proof.Machine
end

