-- ==== Sys2Proof/Machine/Flags.lean ====
section
/-! DEFINITION. The derived flags (R29) and the combinational values a cycle computes from the
start-of-cycle state (R162, R93, R170, R208). -/

namespace Sys2Proof.Machine

/-- `busy = (fa_state = FA_ACTIVE)` (R29). -/
def State.busy (s : State) : Bool := s.faState = .active

/-- `cancelled = cancel_q` (R29). -/
def State.cancelled (s : State) : Bool := s.cancelQ

/-- `session_open = (hs_state = ESTABLISHED)` (R29). -/
def State.sessionOpen (s : State) : Bool := s.hsState = .established

/-- `cancel_eff = cancel_q or cancel_in` (R162). -/
def State.cancelEff (s : State) (cancelIn : Bool) : Bool := s.cancelQ || cancelIn

/-- `rx_req_max`: `min(RX_LANES, L - fill)` at a poll that is not cancelled, else 0 (R91 to R93, R208). -/
def State.request (s : State) (cancelIn : Bool) : Nat :=
  if s.busy && !s.cancelEff cancelIn then min s.cfg.rxLanes (s.cfg.frameSize - s.fill) else 0

/-- The transport delivers more than `rx_req_max` (R170). -/
def State.overrun (s : State) (cancelIn : Bool) : Bool := decide (s.request cancelIn < s.input.rxCount)

end Sys2Proof.Machine
end

