-- ==== Sys2Proof/Machine/Cycle.lean ====
section
/-! DEFINITION. One clock cycle (R160): the poll and how a receive ends (R91 to R99, R144 to R146), the
op phase around it, and the reset cycle (R161). `s` is always the start-of-cycle state, `t` the state being built. -/

namespace Sys2Proof.Machine

/-- `cpl_verdict` of a receive's end (R70, R83). -/
def RxResult.verdict : RxResult → Verdict
  | .ok _ => .ok
  | .badPacket => .badPacket
  | .badChecksum => .badChecksum
  | .cancelled => .cancelled

/-- Ends a handshake without success (R145). -/
def mismatch (v : Verdict) (reason : HsReason) (observed : Option Byte) (t : State) : State :=
  (t.setHs .failed).setCpl (.hsDone v false reason observed)

/-- HsFinish: the end of a handshake's one receive (R144 to R146). -/
def hsFinish (c : Config) (r : RxResult) (t : State) : State :=
  match r with
  | .ok pkt =>
    if pkt.ptype = c.ptResponse ∧ pkt.cmd = c.respOk then
      (t.setHs .established).setCpl (.hsDone .ok true .none (some pkt.ptype))
    else if pkt.ptype ≠ c.ptResponse then mismatch .ok .wrongType (some pkt.ptype) t
    else mismatch .ok .wrongCmd (some pkt.ptype) t
  | .badPacket => mismatch .badPacket .badPacket none t
  | .badChecksum => mismatch .badChecksum .badChecksum none t
  | .cancelled => mismatch .cancelled .cancelled none t

/-- Finish: the receive's end goes to whichever op began it (R99). -/
def finish (s : State) (r : RxResult) (t : State) : State :=
  if s.hsState = .awaiting then hsFinish s.cfg r t else t.setCpl (.recvDone r)

/-- What every ending of a receive does to the accumulator: idle, with an empty cursor (R92, R94). -/
def endReceive (s : State) (r : RxResult) (t : State) : State :=
  finish s r ((t.setFa .idle).setFill 0)

/-- Steps 2 and 3 of a poll: append the chunk at the cursor, and complete the frame when the count
reaches L (R93, R94). -/
def append (s : State) (chunk : List Byte) (t : State) : State :=
  let filled := s.fill + chunk.length
  let stored := t.setBuf (s.buf.write s.fill chunk)
  if filled = s.cfg.frameSize then
    endReceive s (deserialize s.cfg (s.buf.read 0 s.fill ++ chunk)) stored
  else stored.setFill filled

/-- Phase P: the poll iteration of a busy cycle, the cancellation check first (R91 to R94). -/
def pollPhase (s : State) (cancelIn : Bool) (t : State) : Host.Outcome State Fault Refusal :=
  if s.busy then
    if s.cancelEff cancelIn then .next (endReceive s .cancelled t)
    else if s.cfg.frameSize ≤ s.fill then .fault .cursorOutOfRange
    else .next (append s s.chunk t)
  else .next t

/-- The state a cycle with `rst = 0` starts to build: the sticky flag has taken the pin (R165) and
`rx_req_max` is driven (R66). -/
def State.openCycle (s : State) (cancelIn : Bool) : State :=
  (s.beginCycle.setCancel (s.cancelEff cancelIn)).setReq (s.request cancelIn)

/-- A cycle with `rst = 0` (R160): the contract of R170, Phase P, then Phase O.
Both phases judge the start-of-cycle state `s`. -/
def runCycle (cancelIn : Bool) (phaseO : State → State → State) (s : State) : Host.Outcome State Fault Refusal :=
  if s.overrun cancelIn then .refused .rxOverrun
  else
    match pollPhase s cancelIn (s.openCycle cancelIn) with
    | .next t => .next (phaseO s t)
    | .fault r => .fault r
    | .refused r => .refused r

/-- An op of the three families: busy is judged at the start of the cycle and comes before the op's
own check (R163, R167). -/
def unlessBusy (body : State → State → State) (s t : State) : State :=
  if s.busy then t.raise .errBusy else body s t

/-- The accumulator of an accepted RECV or HSHAKE: active, with an empty cursor (R90, R140). -/
def startReceive (t : State) : State := (t.setFa .active).setFill 0

/-- ResetState in the block's own elements (R161, R200). -/
def State.resetBlock (t : State) : State :=
  ((((t.setFa .idle).setFill 0).setBuf []).setCancel false).setHs .idle

/-- A cycle with `rst = 1` (R160, R161): every element takes its reset value, the outputs are the
defaults of the state before, and no byte may be delivered (R170). -/
def resetCycle (s : State) : Host.Outcome State Fault Refusal :=
  if 0 < s.input.rxCount then .refused .rxOverrun else .next s.beginCycle.resetBlock

end Sys2Proof.Machine
end

