-- ==== Sys2Proof/Machine/Accumulator.lean ====
section
/-! DEFINITION. RECV (R90). -/

namespace Sys2Proof.Machine

/-- RECV's own body, in an idle cycle. -/
def recvBody (_ t : State) : State := (startReceive t).setAck .started

/-- RECV: start receiving one frame. -/
def execRecv (s : State) : Host.Outcome State Fault Refusal :=
  runCycle s.input.cancelIn (unlessBusy recvBody) s

end Sys2Proof.Machine
end

