-- ==== Sys2Proof/Machine/Control.lean ====
section
/-! DEFINITION. NOP (R164), the reserved op codes (R166) and the pins RST (R161) and CANCEL (R165). -/

namespace Sys2Proof.Machine

/-- NOP's op phase: `skip` (R164). -/
def skipBody (_ t : State) : State := t

/-- The op phase of a reserved op, busy or not (R166). -/
def reservedBody (_ : BitVec 2) (_ t : State) : State := t.raise .errIllegal

/-- NOP: the poll and the cancel pin act as in every cycle. -/
def execNop (s : State) : Host.Outcome State Fault Refusal :=
  runCycle s.input.cancelIn skipBody s

/-- A reserved op code: ERR_ILLEGAL and no other effect of its own. -/
def execReserved (code : BitVec 2) (s : State) : Host.Outcome State Fault Refusal :=
  runCycle s.input.cancelIn (reservedBody code) s

/-- RST: the cycle in which `rst = 1`. -/
def execRst (s : State) : Host.Outcome State Fault Refusal := resetCycle s

/-- CANCEL: the cycle in which `cancel_in = 1` and no operation is presented. -/
def execCancel (s : State) : Host.Outcome State Fault Refusal :=
  runCycle true skipBody s

end Sys2Proof.Machine
end

