-- ==== Sys2Proof/Machine/Handshake.lean ====
section
/-! DEFINITION. HSHAKE (R140, R142). -/

namespace Sys2Proof.Machine

/-- HSHAKE's own body, in an idle cycle. -/
def hshakeBody (s t : State) : State :=
  if s.hsState = .established then t.raise .errState
  else ((startReceive (t.setTx (helloFrame s.cfg))).setHs .awaiting).setAck .started

/-- HSHAKE: send HELLO and await the reply. -/
def execHshake (s : State) : Host.Outcome State Fault Refusal :=
  runCycle s.input.cancelIn (unlessBusy hshakeBody) s

end Sys2Proof.Machine
end

