-- ==== Sys2Proof/Machine/Sender.lean ====
section
/-! DEFINITION. SEND (R120). -/

namespace Sys2Proof.Machine

/-- SEND's own body, in an idle cycle. -/
def sendBody (ptype cmd nparams : Byte) (params : List Nat) (data : List Byte) (s t : State) : State :=
  match serialize s.cfg ptype cmd nparams.toNat params data with
  | .ok frame => (t.setTx frame).setAck .sent
  | .error .invalidParameterCount => t.raise .errParamCount

/-- SEND: serialize a packet and write it to the transport. -/
def execSend (ptype cmd nparams : Byte) (params : List Nat) (data : List Byte) (s : State) :
    Host.Outcome State Fault Refusal :=
  runCycle s.input.cancelIn (unlessBusy (sendBody ptype cmd nparams params data)) s

end Sys2Proof.Machine
end

