-- ==== Sys2Proof/Machine/Dispatch.lean ====
section
/-! DEFINITION. The meaning of each operation: one clock cycle in which it is presented (R160). -/

namespace Sys2Proof.Machine

def exec (i : Instr) (s : State) : Host.Outcome State Fault Refusal :=
  match i with
  | .nop => Sys2Proof.Machine.execNop s
  | .recv => Sys2Proof.Machine.execRecv s
  | .send ptype cmd nparams params data => Sys2Proof.Machine.execSend ptype cmd nparams params data s
  | .hshake => Sys2Proof.Machine.execHshake s
  | .reserved code => Sys2Proof.Machine.execReserved code s
  | .rst => Sys2Proof.Machine.execRst s
  | .cancel => Sys2Proof.Machine.execCancel s

end Sys2Proof.Machine
end

