-- ==== Sys2Proof/Machine/Step.lean ====
section
/-! DEFINITION. One step is one clock cycle (R160): the input ports are sampled, the operation they
present is decoded, and its cycle runs. -/

namespace Sys2Proof.Machine

/-- One clock cycle. -/
def step (s : State) : Host.Outcome State Fault Refusal :=
  match Sys2Proof.decodeCycle s.cfg s.input with
  | .ok i => exec i s
  | .error .wordTooWide => .refused .wordTooWide

/-- `s` with a next cycle in which the low `nbits` bits of `w` stand on `cmdw`, both pins are 0 and no
byte is received. -/
def State.withFetchWord (s : State) (nbits w : Nat) : State :=
  { s with
    stimulus := { rst := false, cancelIn := false, cmdw := w % 2 ^ nbits, rxCount := 0, rxBytes := [] } :: s.stimulus }

end Sys2Proof.Machine
end

