-- ==== Sys2Proof/Machine/Assembler.lean ====
section
/-! DEFINITION. The spec's own textual syntax for operations and stimulus, as terms (R78). -/

namespace Sys2Proof.Machine

/-- A line of R78's syntax: the four ops and the pseudo-instructions WAIT and MSG. -/
inductive AsmLine where
  | nop
  | recv
  | hshake
  /-- `SEND <ptype>, <cmd>, [<p0>, ...], data=<bytes>`; an absent `data=` is the empty list. -/
  | send (ptype cmd : Byte) (params : List Nat) (data : List Byte)
  /-- `WAIT n`. -/
  | wait (n : Nat)
  /-- `MSG "<text>"`, the text as its bytes. -/
  | msg (text : List Byte)
  deriving DecidableEq, Repr

/-- What R78 calls an assembler error. -/
inductive AsmError where
  /-- More than 255 parameters. -/
  | paramListTooLong
  /-- More than D data bytes. -/
  | dataTooLong
  deriving DecidableEq, Repr

/-- The SEND operation of a list of k parameters: lanes k..C are 0, and the data is zero-padded to D (R78). -/
def assembleSend (c : Config) (ptype cmd : Byte) (params : List Nat) (data : List Byte) : Except AsmError Instr :=
  if 255 < params.length then .error .paramListTooLong
  else if c.dataLen < data.length then .error .dataTooLong
  else .ok (.send ptype cmd (BitVec.ofNat 8 params.length)
    ((List.range c.paramCount).map fun i => params.getD i 0)
    ((List.range c.dataLen).map fun j => data.getD j 0))

/-- The operations a line stands for, one a cycle (R78). -/
def assemble (c : Config) : AsmLine → Except AsmError (List Instr)
  | .nop => .ok [.nop]
  | .recv => .ok [.recv]
  | .hshake => .ok [.hshake]
  | .send ptype cmd params data => (assembleSend c ptype cmd params data).map fun i => [i]
  | .wait n => .ok (List.replicate n .nop)
  | .msg text => (assembleSend c c.ptMessage 0 [] text).map fun i => [i]

/-- The stimulus written beside an op: `rx=<bytes>`, `cancel` and `rst` (R78). -/
def withStimulus (c : Config) (op : Instr) (rx : List Byte) (cancel rst : Bool) : CycleIn where
  rst      := rst
  cancelIn := cancel
  cmdw     := encode c op
  rxCount  := rx.length
  rxBytes  := rx

end Sys2Proof.Machine
end

