-- ==== Sys2Proof/Machine/Ports.lean ====
section
/-! DEFINITION. The output ports pin by pin: the code numbers of R68 and R83, and the zeros that a
channel drives when it is not valid (R68 to R71, R171). -/

namespace Sys2Proof.Machine

/-- `ack_code` (R68). -/
def AckCode.code : AckCode → BitVec 3
  | .started => 0
  | .sent => 1
  | .errParamCount => 2
  | .errBusy => 3
  | .errState => 4
  | .errIllegal => 5

/-- `cpl_verdict` (R83). -/
def Verdict.code : Verdict → BitVec 2
  | .ok => 0
  | .badPacket => 1
  | .badChecksum => 2
  | .cancelled => 3

/-- `hs_reason` (R83). -/
def HsReason.code : HsReason → BitVec 3
  | .none => 0
  | .wrongType => 1
  | .wrongCmd => 2
  | .badPacket => 3
  | .badChecksum => 4
  | .cancelled => 5

/-- `st_hs` (R25, R83). -/
def HsState.code : HsState → BitVec 2
  | .idle => 0
  | .awaiting => 1
  | .established => 2
  | .failed => 3

/-- `fa_state` (R20, R83). -/
def FaState.code : FaState → BitVec 1
  | .idle => 0
  | .active => 1

/-- Every output pin of a cycle. -/
structure PinValues where
  ackValid      : Bool
  ackCode       : BitVec 3
  txValid       : Bool
  txFrame       : List Byte
  cplValid      : Bool
  cplKind       : BitVec 1
  cplVerdict    : BitVec 2
  pktPtype      : Byte
  pktCmd        : Byte
  pktParams     : List Nat
  pktData       : List Byte
  hsEstablished : Bool
  hsReason      : BitVec 3
  hsObsValid    : Bool
  hsObsType     : Byte
  rxReqMax      : Nat
  stBusy        : Bool
  stHs          : BitVec 2
  stCancelled   : Bool
  stFill        : Nat
  deriving DecidableEq, Repr

/-- The `pkt_*` fields where no packet is delivered: all 0 (R70). -/
def zeroPacket (c : Config) : Packet where
  ptype  := 0
  cmd    := 0
  params := List.replicate c.paramCount 0
  data   := List.replicate c.dataLen 0

/-- The packet on `pkt_*`: the decoded one in a RECV_DONE cycle with verdict OK, else zeros (R70, R71). -/
def deliveredPacket (c : Config) : Option Completion → Packet
  | some (.recvDone (.ok pkt)) => pkt
  | _ => zeroPacket c

/-- `cpl_verdict` of a completion (R70, R71, R83). -/
def Completion.verdictCode : Completion → BitVec 2
  | .recvDone (.ok _) => Verdict.code .ok
  | .recvDone .badPacket => Verdict.code .badPacket
  | .recvDone .badChecksum => Verdict.code .badChecksum
  | .recvDone .cancelled => Verdict.code .cancelled
  | .hsDone v _ _ _ => v.code

/-- `cpl_kind`: RECV_DONE = 0, HS_DONE = 1 (R70, R83). -/
def Completion.kindCode : Completion → BitVec 1
  | .recvDone _ => 0
  | .hsDone _ _ _ _ => 1

/-- The HS_DONE fields `hs_established`, `hs_reason` and the observed type; 0 in any other cycle (R71). -/
def handshakeFields : Option Completion → Bool × BitVec 3 × Option Byte
  | some (.hsDone _ established reason observed) => (established, reason.code, observed)
  | _ => (false, 0, none)

/-- The pins that a cycle's outputs drive. -/
def Outputs.pins (c : Config) (o : Outputs) : PinValues where
  ackValid      := o.ack.isSome
  ackCode       := (o.ack.map AckCode.code).getD 0
  txValid       := o.tx.isSome
  txFrame       := o.tx.getD (List.replicate c.frameSize 0x00)
  cplValid      := o.cpl.isSome
  cplKind       := (o.cpl.map Completion.kindCode).getD 0
  cplVerdict    := (o.cpl.map Completion.verdictCode).getD 0
  pktPtype      := (deliveredPacket c o.cpl).ptype
  pktCmd        := (deliveredPacket c o.cpl).cmd
  pktParams     := (deliveredPacket c o.cpl).params
  pktData       := (deliveredPacket c o.cpl).data
  hsEstablished := (handshakeFields o.cpl).1
  hsReason      := (handshakeFields o.cpl).2.1
  hsObsValid    := (handshakeFields o.cpl).2.2.isSome
  hsObsType     := (handshakeFields o.cpl).2.2.getD 0
  rxReqMax      := o.rxReqMax
  stBusy        := o.stBusy
  stHs          := o.stHs.code
  stCancelled   := o.stCancelled
  stFill        := o.stFill

end Sys2Proof.Machine
end

