-- ==== Sys2Proof/Safety.lean ====
section
/-! DEFINITION. The terms in which claims speak of a safe run: the invariants of R26 and R40, the
agents' duties of R197, and how a run ends (R198). -/

namespace Sys2Proof.Machine

/-- The bounds R7 puts on an instance: 1 <= C <= 255 and 1 <= W <= L. -/
abbrev LegalInstance (c : Config) : Prop :=
  1 ≤ c.paramCount ∧ c.paramCount ≤ 255 ∧ 1 ≤ c.rxLanes ∧ c.rxLanes ≤ c.frameSize

/-- The buffer is canonical data and lies inside `buf[0..L)` (R40). -/
abbrev State.BufferOk (s : State) : Prop := s.buf.wf = true ∧ s.buf.within s.cfg.frameSize = true

/-- (I1), (I2), the state part of (I3) (R26), and the buffer's form. -/
abbrev State.Inv (s : State) : Prop :=
  s.fill < s.cfg.frameSize ∧ (s.faState = .idle → s.fill = 0) ∧ (s.hsState = .awaiting → s.faState = .active)
    ∧ s.BufferOk

/-- The transport keeps its contract in the cycle about to run (R170, R197). -/
abbrev State.TransportOk (s : State) : Prop := s.input.rxCount ≤ s.request s.input.cancelIn

/-- The command word is a value of the port (R60). -/
abbrev State.WordOk (s : State) : Prop := s.input.cmdw < 2 ^ s.cfg.cmdwBits

/-- A run that ends here leaves no receive pending (R198). -/
abbrev State.Quiescent (s : State) : Prop := s.faState = .idle

/-- `cancel_in` in the cycle in which `i` is presented (R67). -/
def State.cancelPin (s : State) (i : Instr) : Bool := if i = .cancel then true else s.input.cancelIn

/-- A poll of this cycle reads from the transport: the accumulator is active and nothing cancels it (R91 to R93). -/
abbrev State.Reads (s : State) (i : Instr) : Prop :=
  s.faState = .active ∧ s.cancelQ = false ∧ s.cancelPin i = false

/-- The frame that stands in `buf` after this cycle's append: the bytes below the cursor, then the lanes received (R94). -/
def State.frameAfterAppend (s : State) : List Byte :=
  (List.range s.cfg.frameSize).map fun k =>
    if k < s.fill then s.buf.get k else s.input.rxBytes.getD (k - s.fill) 0

/-- How a handshake's one receive ends with result `r` (R144, R145): the session, and the HS_DONE completion
with its reason and, exactly when a packet was decoded, the observed type. -/
abbrev State.EndsHandshake (t : State) (c : Config) (r : RxResult) : Prop :=
  (r = .cancelled → t.hsState = .failed ∧ t.out.cpl = some (.hsDone .cancelled false .cancelled none)) ∧
  (r = .badPacket → t.hsState = .failed ∧ t.out.cpl = some (.hsDone .badPacket false .badPacket none)) ∧
  (r = .badChecksum → t.hsState = .failed ∧ t.out.cpl = some (.hsDone .badChecksum false .badChecksum none)) ∧
  (∀ pkt, r = .ok pkt →
    (pkt.ptype = c.ptResponse → pkt.cmd = c.respOk →
      t.hsState = .established ∧ t.out.cpl = some (.hsDone .ok true .none (some pkt.ptype))) ∧
    (pkt.ptype ≠ c.ptResponse →
      t.hsState = .failed ∧ t.out.cpl = some (.hsDone .ok false .wrongType (some pkt.ptype))) ∧
    (pkt.ptype = c.ptResponse → pkt.cmd ≠ c.respOk →
      t.hsState = .failed ∧ t.out.cpl = some (.hsDone .ok false .wrongCmd (some pkt.ptype))))

/-- The bytes of the current receive stand in `buf[0..fill)` (R23, R42). -/
abbrev State.HoldsTaken (s : State) (taken : List Byte) : Prop :=
  s.fill = taken.length ∧ ∀ k, k < taken.length → s.buf.get k = taken.getD k 0

/-- The block's own five elements agree (R20). -/
abbrev State.SameBlock (s t : State) : Prop :=
  t.faState = s.faState ∧ t.fill = s.fill ∧ t.buf = s.buf ∧ t.cancelQ = s.cancelQ ∧ t.hsState = s.hsState

/-- What is not the block's: the instance stays, one input is consumed, one cycle is counted. -/
abbrev State.AdvancesFrom (t s : State) : Prop :=
  t.cfg = s.cfg ∧ t.stimulus = s.stimulus.tail ∧ t.cycle = s.cycle + 1

end Sys2Proof.Machine
end

