-- ==== Sys2Proof/Certificates/Slice0/Obligations.lean ====
section
/-! DEFINITION. The statements for the provers, in the order of the spec's files. Each docstring names
the rule it speaks of; a clause that rests on a choice of the model says so. -/

open Sys2Proof Sys2Proof.Machine

/-! ## Encoding (30_encoding.md) -/

/-- The eight command words that 95_test_vectors.md section 3 writes out decode to the operations it gives them:
the four of its table, and the SENDs of P1 c4, P2 c2, P2 c8 and P3 c6. -/
def Obligations.SpecWordsDecode : Prop :=
  decode Config.standard 0x0 = .ok .nop ∧
  decode Config.standard 0x1 = .ok .recv ∧
  decode Config.standard 0x3 = .ok .hshake ∧
  decode Config.standard 0x5 = .ok (.reserved 1) ∧
  decode Config.standard 0x19000000050100002 =
    .ok (.send ptCommandCode cmdForwardCode 2 ([10, 50] ++ List.replicate 8 0) (List.replicate 32 0)) ∧
  decode Config.standard 0x8080002 = .ok (.send ptCommandCode 0 1 (1 :: List.replicate 9 0) (List.replicate 32 0)) ∧
  decode Config.standard
      0x48000000400000003800000030000000280000002000000018000000100000000800000000580002 =
    .ok (.send ptCommandCode 0 11 (List.range 10) (List.replicate 32 0)) ∧
  decode Config.standard (0x1A + 0x48 * 2 ^ 347 + 0x69 * 2 ^ 355) =
    .ok (.send ptMessageCode 0 0 (List.replicate 10 0) ([0x48, 0x69] ++ List.replicate 30 0))

/-- R61: the low three bits select the operation, and every one of their values decodes. -/
def Obligations.EveryOpValueDecodes : Prop :=
  ∀ (c : Config) (w : Nat), w < 2 ^ c.cmdwBits →
    (w % 8 = 0 → decode c w = .ok .nop) ∧
    (w % 8 = 1 → decode c w = .ok .recv) ∧
    (w % 8 = 2 → ∃ ptype cmd nparams params data, decode c w = .ok (.send ptype cmd nparams params data)) ∧
    (w % 8 = 3 → decode c w = .ok .hshake) ∧
    (w % 8 = 4 → decode c w = .ok (.reserved 0)) ∧
    (w % 8 = 5 → decode c w = .ok (.reserved 1)) ∧
    (w % 8 = 6 → decode c w = .ok (.reserved 2)) ∧
    (w % 8 = 7 → decode c w = .ok (.reserved 3))

/-- R60: where each operand of SEND stands in `cmdw`, bit by bit, with parameter lanes of 32 bits (PARAM_LEN = 4,
as R7 gives it); the other ops ignore the operand fields; and the width. -/
def Obligations.SendFieldPositions : Prop :=
  (∀ (c : Config) (w : Nat), c.paramLen = 4 → w < 2 ^ c.cmdwBits → w % 8 = 2 →
    ∃ ptype cmd nparams params data, decode c w = .ok (.send ptype cmd nparams params data) ∧
      params.length = c.paramCount ∧ data.length = c.dataLen ∧
      (∀ k, k < 8 → ptype.getLsbD k = w.testBit (3 + k)) ∧
      (∀ k, k < 8 → cmd.getLsbD k = w.testBit (11 + k)) ∧
      (∀ k, k < 8 → nparams.getLsbD k = w.testBit (19 + k)) ∧
      (∀ i, i < c.paramCount → params.getD i 0 < 2 ^ 32 ∧
        ∀ k, k < 32 → (params.getD i 0).testBit k = w.testBit (27 + 32 * i + k)) ∧
      (∀ j k, j < c.dataLen → k < 8 →
        (data.getD j 0).getLsbD k = w.testBit (27 + 32 * c.paramCount + 8 * j + k))) ∧
  (∀ (c : Config) (w w' : Nat), w < 2 ^ c.cmdwBits → w' < 2 ^ c.cmdwBits → w % 8 = w' % 8 → w % 8 ≠ 2 →
    decode c w = decode c w') ∧
  (∀ c : Config, c.paramLen = 4 → c.cmdwBits = 27 + 32 * c.paramCount + 8 * c.dataLen) ∧
  Config.standard.cmdwBits = 603

/-- The layout of R60 for every PARAM_LEN: a parameter lane has 8 bits for each byte of the parameter, and the
data lanes follow the last of them. That the lanes follow PARAM_LEN is the model's reading (log entry 11). -/
def Obligations.SendLanesFollowParamLen : Prop :=
  ∀ (c : Config) (w : Nat), w < 2 ^ c.cmdwBits → w % 8 = 2 →
    ∃ ptype cmd nparams params data, decode c w = .ok (.send ptype cmd nparams params data) ∧
      params.length = c.paramCount ∧ data.length = c.dataLen ∧
      (∀ i, i < c.paramCount → params.getD i 0 < 2 ^ (8 * c.paramLen) ∧
        ∀ k, k < 8 * c.paramLen → (params.getD i 0).testBit k = w.testBit (27 + 8 * c.paramLen * i + k)) ∧
      (∀ j k, j < c.dataLen → k < 8 →
        (data.getD j 0).getLsbD k = w.testBit (27 + 8 * c.paramLen * c.paramCount + 8 * j + k))

/-- Decoding the pins and the word that present a well-formed operation gives that operation back, for
every operation, every operand value and every instance. -/
def Obligations.DecodeEncodeRoundTrip : Prop :=
  ∀ (c : Config) (i : Instr), i.wellFormed c = true → decodeCycle c (encodeCycle c i) = .ok i

/-- What decoding a word gives is well-formed and encodes back to the bits it was read from: all of them
for SEND, the op field for the others. -/
def Obligations.EncodeOfDecodedWord : Prop :=
  ∀ (c : Config) (w : Nat) (i : Instr), decode c w = .ok i →
    i.wellFormed c = true ∧ encode c i = if w % 8 = 2 then w else w % 8

/-- R161 and R165 in one cycle's decoding: `rst` overrides the op field, and `cancel_in` leaves an op
that is presented as it is. That `cancel_in` with NOP is named CANCEL is the model's reading (log entry 5). -/
def Obligations.PinsAndOpDecode : Prop :=
  ∀ (c : Config) (inp : CycleIn) (op : Instr), decode c inp.cmdw = .ok op →
    (inp.rst = true → decodeCycle c inp = .ok .rst) ∧
    (inp.rst = false → inp.cancelIn = false → decodeCycle c inp = .ok op) ∧
    (inp.rst = false → inp.cancelIn = true → op ≠ .nop → decodeCycle c inp = .ok op) ∧
    (inp.rst = false → inp.cancelIn = true → op = .nop → decodeCycle c inp = .ok .cancel)

/-- R78: a SEND line of k parameters sets `s_nparams = k`, assembles the lanes past the list as 0 and
pads the data with zeros to D; a longer list or longer data is an assembler error; MSG and WAIT expand, the
other lines stand for themselves, and the stimulus words set the other inputs of the cycle. That a list of
C < k <= 255 values assembles, with its count, to its first C lanes is the model's choice (log entry 18). -/
def Obligations.AssembledSend : Prop :=
  (∀ (c : Config) (ptype cmd : Byte) (params : List Nat) (data : List Byte),
    (255 < params.length → assemble c (.send ptype cmd params data) = .error .paramListTooLong) ∧
    (params.length ≤ 255 → c.dataLen < data.length →
      assemble c (.send ptype cmd params data) = .error .dataTooLong) ∧
    (params.length ≤ 255 → data.length ≤ c.dataLen → (∀ v ∈ params, v < 2 ^ (8 * c.paramLen)) →
      ∃ (n : Byte) (lanes : List Nat) (bytes : List Byte),
        assemble c (.send ptype cmd params data) = .ok [.send ptype cmd n lanes bytes] ∧
        (Instr.send ptype cmd n lanes bytes).wellFormed c = true ∧ n.toNat = params.length ∧
        (∀ i, i < c.paramCount → i < params.length → lanes.getD i 0 = params.getD i 0) ∧
        (∀ i, i < c.paramCount → params.length ≤ i → lanes.getD i 0 = 0) ∧
        bytes = data ++ List.replicate (c.dataLen - data.length) 0)) ∧
  (∀ (c : Config) (text : List Byte), assemble c (.msg text) = assemble c (.send c.ptMessage 0 [] text)) ∧
  (∀ (c : Config) (n : Nat), ∃ ops, assemble c (.wait n) = .ok ops ∧ ops.length = n ∧ ∀ op ∈ ops, op = .nop) ∧
  (∀ c : Config, assemble c .nop = .ok [.nop] ∧ assemble c .recv = .ok [.recv] ∧
    assemble c .hshake = .ok [.hshake]) ∧
  (∀ (c : Config) (op : Instr) (rx : List Byte) (cancel rst : Bool),
    (withStimulus c op rx cancel rst).cmdw = encode c op ∧ received (withStimulus c op rx cancel rst) = rx ∧
      (withStimulus c op rx cancel rst).cancelIn = cancel ∧ (withStimulus c op rx cancel rst).rst = rst)

/-! ## The Packet Codec (41_packet_codec.md) -/

/-- Serialize gives L bytes: each field stands at its offset with the value R110 gives it, multi-byte fields
in the instance's byte order, and the last byte is the instance's checksum of the payload; it fails only for
`n > C`. R43, R73 and R110 to R112 say so for lengths of 4, little-endian fields and XOR, the defaults of the last
clauses. The other lengths and the byte-sum (M1, M3, M5, R172) are the model's reading (log entry 11), and so is
the other byte order (M6; log entry 20). -/
def Obligations.SerializeLayout : Prop :=
  (∀ (c : Config) (ptype cmd : Byte) (n : Nat) (p : List Nat) (d : List Byte), n ≤ c.paramCount →
    ∃ f, serialize c ptype cmd n p d = .ok f ∧ f.length = c.frameSize ∧
      c.frameSize = c.magicLen + (2 + c.paramLen * c.paramCount + c.dataLen) + 1 ∧
      (∀ k, k < c.magicLen → f.getD k 0
        = BitVec.ofNat 8 (c.magic / 256 ^ (if c.byteOrder = .little then k else c.magicLen - 1 - k))) ∧
      f.getD c.magicLen 0 = ptype ∧ f.getD (c.magicLen + 1) 0 = cmd ∧
      (∀ i k, i < c.paramCount → k < c.paramLen →
        f.getD (c.magicLen + 2 + c.paramLen * i + k) 0
          = BitVec.ofNat 8 ((if i < n then p.getD i 0 else 0)
            / 256 ^ (if c.byteOrder = .little then k else c.paramLen - 1 - k))) ∧
      (∀ j, j < c.dataLen →
        f.getD (c.magicLen + 2 + c.paramLen * c.paramCount + j) 0 = if ptype = c.ptMessage then d.getD j 0 else 0) ∧
      (c.checksum = .xorFold → f.getD (c.frameSize - 1) 0
        = ((f.drop c.magicLen).take (c.frameSize - (c.magicLen + 1))).foldl (fun a b => a ^^^ b) 0) ∧
      (c.checksum = .byteSum → f.getD (c.frameSize - 1) 0
        = ((f.drop c.magicLen).take (c.frameSize - (c.magicLen + 1))).foldl (fun a b => a + b) 0)) ∧
  (∀ (c : Config) (ptype cmd : Byte) (n : Nat) (p : List Nat) (d : List Byte), c.paramCount < n →
    serialize c ptype cmd n p d = .error .invalidParameterCount) ∧
  Config.standard.magicLen = 4 ∧ Config.standard.paramLen = 4 ∧ Config.standard.checksum = .xorFold ∧
  Config.standard.byteOrder = .little ∧
  Config.standard.frameSize = 79 ∧ Config.standard.payloadSize = 74 ∧
  fieldBytes Config.standard.byteOrder 4 Config.standard.magic = [0xFF, 0xFE, 0xFD, 0xFC]

/-- R113: `n > C` is InvalidParameterCount and makes no frame, `n = C` is legal, and SEND reports the
condition as ERR_PARAM_COUNT and transmits nothing. -/
def Obligations.TooManyParamsRejected : Prop :=
  (∀ (c : Config) (ptype cmd : Byte) (n : Nat) (p : List Nat) (d : List Byte), c.paramCount < n →
    serialize c ptype cmd n p d = .error .invalidParameterCount) ∧
  (∀ (c : Config) (ptype cmd : Byte) (p : List Nat) (d : List Byte),
    ∃ f, serialize c ptype cmd c.paramCount p d = .ok f) ∧
  (∀ (ptype cmd nparams : Byte) (params : List Nat) (data : List Byte) (s : State),
    s.faState = .idle → s.input.rxCount = 0 → s.cfg.paramCount < nparams.toNat →
    ∃ t, exec (.send ptype cmd nparams params data) s = .next t ∧ t.out.ack = some .errParamCount ∧
      t.out.tx = none ∧ t.out.cpl = none ∧ t.faState = s.faState ∧ t.fill = s.fill ∧ t.buf = s.buf ∧
      t.hsState = s.hsState ∧ t.cancelQ = (s.cancelQ || s.input.cancelIn) ∧ t.AdvancesFrom s)

/-- Deserialize checks the magic first, then the instance's checksum, the XOR or the byte-sum of the payload, and
then reads each field at its offset, a parameter in the instance's byte order. R114 to R117 say so for lengths of 4,
little-endian fields and XOR. The other lengths and the byte-sum (M1, M3, M5, R172) are the model's reading (log
entry 11), and so is the other byte order (M6; log entry 20). -/
def Obligations.DeserializeByRule : Prop :=
  ∀ (c : Config) (f : List Byte), f.length = c.frameSize →
    ((∃ k, k < c.magicLen ∧ f.getD k 0
        ≠ BitVec.ofNat 8 (c.magic / 256 ^ (if c.byteOrder = .little then k else c.magicLen - 1 - k))) →
      deserialize c f = .badPacket) ∧
    ((∀ k, k < c.magicLen → f.getD k 0
        = BitVec.ofNat 8 (c.magic / 256 ^ (if c.byteOrder = .little then k else c.magicLen - 1 - k))) →
      (((f.drop c.magicLen).take (c.frameSize - (c.magicLen + 1))).foldl
          (fun a b => match c.checksum with | .xorFold => a ^^^ b | .byteSum => a + b) 0
          ≠ f.getD (c.frameSize - 1) 0 → deserialize c f = .badChecksum) ∧
      (((f.drop c.magicLen).take (c.frameSize - (c.magicLen + 1))).foldl
          (fun a b => match c.checksum with | .xorFold => a ^^^ b | .byteSum => a + b) 0
          = f.getD (c.frameSize - 1) 0 →
        ∃ pkt, deserialize c f = .ok pkt ∧ pkt.ptype = f.getD c.magicLen 0 ∧ pkt.cmd = f.getD (c.magicLen + 1) 0 ∧
          pkt.params.length = c.paramCount ∧ pkt.data.length = c.dataLen ∧
          (∀ i, i < c.paramCount → pkt.params.getD i 0 < 256 ^ c.paramLen ∧
            ∀ k, k < c.paramLen →
              pkt.params.getD i 0 / 256 ^ (if c.byteOrder = .little then k else c.paramLen - 1 - k) % 256
              = (f.getD (c.magicLen + 2 + c.paramLen * i + k) 0).toNat) ∧
          (c.magicLen = 4 → c.paramLen = 4 → c.byteOrder = .little → ∀ i, i < c.paramCount → pkt.params.getD i 0 =
            (f.getD (6 + 4 * i) 0).toNat + 256 * (f.getD (7 + 4 * i) 0).toNat
              + 65536 * (f.getD (8 + 4 * i) 0).toNat + 16777216 * (f.getD (9 + 4 * i) 0).toNat) ∧
          (∀ j, j < c.dataLen →
            pkt.data.getD j 0 = f.getD (c.magicLen + 2 + c.paramLen * c.paramCount + j) 0)))

/-- R122: Deserialize answers BAD_PACKET, BAD_CHECKSUM or OK with a whole packet, and nothing else. -/
def Obligations.SingleVerdict : Prop :=
  ∀ (c : Config) (f : List Byte), f.length = c.frameSize →
    deserialize c f = .badPacket ∨ deserialize c f = .badChecksum ∨
      ∃ pkt, deserialize c f = .ok pkt ∧ pkt.params.length = c.paramCount ∧ pkt.data.length = c.dataLen

/-- R119, for every width, both byte orders and both checksums: Deserialize undoes Serialize, with the parameters
zero-padded and the data kept only for a MESSAGE packet. -/
def Obligations.SerializeRoundTrip : Prop :=
  ∀ (c : Config) (ptype cmd : Byte) (n : Nat) (p : List Nat) (d : List Byte),
    n ≤ c.paramCount → p.length = c.paramCount → (∀ v ∈ p, v < 256 ^ c.paramLen) → d.length = c.dataLen →
    ∃ f, serialize c ptype cmd n p d = .ok f ∧
      deserialize c f = .ok {
        ptype := ptype
        cmd := cmd
        params := p.take n ++ List.replicate (c.paramCount - n) 0
        data := if ptype = c.ptMessage then d else List.replicate c.dataLen 0x00 }

/-- R121, for every width, both byte orders and both checksums (M1): one changed byte of a serialized frame is always
reported, as BAD_PACKET inside the magic and as BAD_CHECKSUM anywhere else, the checksum byte included. -/
def Obligations.SingleByteCorruptionDetected : Prop :=
  ∀ (c : Config) (ptype cmd : Byte) (n : Nat) (p : List Nat) (d f : List Byte) (k : Nat) (b : Byte),
    serialize c ptype cmd n p d = .ok f → k < c.frameSize → b ≠ f.getD k 0 →
    deserialize c (f.set k b) = if k < c.magicLen then .badPacket else .badChecksum

/-- R121's limit: a permutation of the payload bytes of a good frame is not detected. -/
def Obligations.PayloadPermutationUndetected : Prop :=
  ∀ (c : Config) (f g : List Byte) (pkt : Packet), f.length = c.frameSize → g.length = c.frameSize →
    deserialize c f = .ok pkt → g.take c.magicLen = f.take c.magicLen → g.getD (c.frameSize - 1) 0 = f.getD (c.frameSize - 1) 0 →
    ((f.drop c.magicLen).take (c.frameSize - (c.magicLen + 1))).Perm
      ((g.drop c.magicLen).take (c.frameSize - (c.magicLen + 1))) →
    ∃ pkt', deserialize c g = .ok pkt'

/-- R118: no packetType and no command byte makes Serialize fail or a frame invalid, each passes through
unchanged, and Deserialize masks no data byte. -/
def Obligations.CodecIsTransparent : Prop :=
  (∀ (c : Config) (ptype cmd : Byte) (n : Nat) (p : List Nat) (d : List Byte), n ≤ c.paramCount →
    ∃ f, serialize c ptype cmd n p d = .ok f ∧ f.getD c.magicLen 0 = ptype ∧ f.getD (c.magicLen + 1) 0 = cmd) ∧
  (∀ (c : Config) (ptype cmd : Byte) (body : List Byte), body.length = c.paramLen * c.paramCount + c.dataLen →
    ∃ pkt, deserialize c (envelope c ([ptype, cmd] ++ body)) = .ok pkt ∧ pkt.ptype = ptype ∧ pkt.cmd = cmd ∧
      pkt.data = body.drop (c.paramLen * c.paramCount))

/-- R64 and R65: lanes at and above `s_nparams` are ignored, and so is the data unless the packet is a MESSAGE. -/
def Obligations.UnusedSendLanesIgnored : Prop :=
  ∀ (c : Config) (ptype cmd nparams : Byte) (p p' : List Nat) (d d' : List Byte) (s : State), s.cfg = c →
    (∀ i, i < nparams.toNat → p.getD i 0 = p'.getD i 0) →
    (ptype = c.ptMessage → ∀ j, j < c.dataLen → d.getD j 0 = d'.getD j 0) →
    exec (.send ptype cmd nparams p d) s = exec (.send ptype cmd nparams p' d') s

/-- R141: the HELLO frame is what Serialize makes of (PT_HELLO, CMD_STOP, 0, zeros, zeros), and its bytes at the defaults. -/
def Obligations.HelloFrameBytes : Prop :=
  (∀ c : Config, serialize c c.ptHello c.cmdStop 0 (List.replicate c.paramCount 0) (List.replicate c.dataLen 0)
    = .ok (helloFrame c)) ∧
  helloFrame Config.standard = [0xFF, 0xFE, 0xFD, 0xFC, 0x04, 0x04] ++ List.replicate 72 0x00 ++ [0x00]

/-! ## Reset and the pins (43_cycle_control.md, 70_reset_and_hazards.md) -/

/-- R200: the state after reset, and the status outputs of the first cycle that starts in it. That unlisted bytes
stand for 0x00 is the buffer's form in this model; the fields the rule does not name are not spoken of. -/
def Obligations.ResetStateValues : Prop :=
  State.reset.faState = .idle ∧ State.reset.fill = 0 ∧ (∀ a, State.reset.buf.get a = 0x00) ∧
    State.reset.cancelQ = false ∧ State.reset.hsState = .idle ∧
    (∀ (i : Instr) (s t : State), s.SameBlock State.reset → exec i s = .next t →
      t.out.stBusy = false ∧ t.out.stHs = .idle ∧ t.out.stCancelled = false ∧ t.out.stFill = 0)

/-- R161: a cycle with `rst = 1` takes every element to its reset value from any state, whatever stands
on `op`, the operands and `cancel_in`; it drives the default outputs of the state before; and with a
delivered byte it has no step. -/
def Obligations.ResetCycle : Prop :=
  ∀ s : State, s.WordOk → s.input.rst = true →
    (s.input.rxCount = 0 →
      ∃ t, step s = .next t ∧ exec .rst s = .next t ∧
        t.faState = .idle ∧ t.fill = 0 ∧ (∀ a, t.buf.get a = 0x00) ∧ t.cancelQ = false ∧ t.hsState = .idle ∧
        t.out = { ack := none, tx := none, cpl := none, rxReqMax := 0, stBusy := decide (s.faState = .active),
                  stHs := s.hsState, stCancelled := s.cancelQ, stFill := s.fill } ∧
        t.AdvancesFrom s) ∧
    (0 < s.input.rxCount → step s = .refused .rxOverrun)

/-- R165, idle: CANCEL sets the sticky flag, produces no output and changes nothing else. -/
def Obligations.CancelWhileIdle : Prop :=
  ∀ s : State, s.faState = .idle → s.input.rxCount = 0 →
    ∃ t, exec .cancel s = .next t ∧ t.cancelQ = true ∧ t.faState = s.faState ∧ t.fill = s.fill ∧ t.buf = s.buf ∧
      t.hsState = s.hsState ∧ t.AdvancesFrom s ∧
      t.out = { ack := none, tx := none, cpl := none, rxReqMax := 0, stBusy := false, stHs := s.hsState,
                stCancelled := s.cancelQ, stFill := s.fill }

/-- R24 and R165: in every cycle with `rst = 0` that has a step, whatever the op, the flag becomes
`cancel_q or cancel_in`, and only a reset cycle clears it. -/
def Obligations.CancelFlagIsSticky : Prop :=
  ∀ (i : Instr) (s t : State), exec i s = .next t →
    t.cancelQ = if i = .rst then false else (s.cancelQ || s.cancelPin i)

/-- R164, idle: NOP drives no event channel and changes nothing but what the cancel pin sets. -/
def Obligations.NopWhileIdle : Prop :=
  ∀ s : State, s.faState = .idle → s.input.rxCount = 0 →
    ∃ t, exec .nop s = .next t ∧ t.faState = s.faState ∧ t.fill = s.fill ∧ t.buf = s.buf ∧ t.hsState = s.hsState ∧
      t.cancelQ = (s.cancelQ || s.input.cancelIn) ∧ t.AdvancesFrom s ∧
      t.out = { ack := none, tx := none, cpl := none, rxReqMax := 0, stBusy := false, stHs := s.hsState,
                stCancelled := s.cancelQ, stFill := s.fill }

/-- R166, idle: a reserved op gives ERR_ILLEGAL and has no other effect. -/
def Obligations.ReservedWhileIdle : Prop :=
  ∀ (code : BitVec 2) (s : State), s.faState = .idle → s.input.rxCount = 0 →
    ∃ t, exec (.reserved code) s = .next t ∧ t.faState = s.faState ∧ t.fill = s.fill ∧ t.buf = s.buf ∧
      t.hsState = s.hsState ∧ t.cancelQ = (s.cancelQ || s.input.cancelIn) ∧ t.AdvancesFrom s ∧
      t.out = { ack := some .errIllegal, tx := none, cpl := none, rxReqMax := 0, stBusy := false,
                stHs := s.hsState, stCancelled := s.cancelQ, stFill := s.fill }

/-! ## The ops when accepted (40, 41 and 42) -/

/-- R90: an idle block accepts RECV whatever the session and the cancellation flag are; the accumulator
becomes active with an empty cursor, no byte is requested in the accept cycle, and nothing else changes. -/
def Obligations.RecvAccepted : Prop :=
  ∀ s : State, s.faState = .idle → s.input.rxCount = 0 →
    ∃ t, exec .recv s = .next t ∧ t.faState = .active ∧ t.fill = 0 ∧ t.buf = s.buf ∧ t.hsState = s.hsState ∧
      t.cancelQ = (s.cancelQ || s.input.cancelIn) ∧ t.AdvancesFrom s ∧
      t.out = { ack := some .started, tx := none, cpl := none, rxReqMax := 0, stBusy := false,
                stHs := s.hsState, stCancelled := s.cancelQ, stFill := s.fill }

/-- R120: an idle block sends the frame Serialize makes, acknowledges it, and changes none of its own
state, whatever the session and the cancellation flag are. -/
def Obligations.SendAccepted : Prop :=
  ∀ (ptype cmd nparams : Byte) (params : List Nat) (data : List Byte) (s : State),
    s.faState = .idle → s.input.rxCount = 0 → nparams.toNat ≤ s.cfg.paramCount →
    ∃ t frame, exec (.send ptype cmd nparams params data) s = .next t ∧
      serialize s.cfg ptype cmd nparams.toNat params data = .ok frame ∧
      t.faState = s.faState ∧ t.fill = s.fill ∧ t.buf = s.buf ∧ t.hsState = s.hsState ∧
      t.cancelQ = (s.cancelQ || s.input.cancelIn) ∧ t.AdvancesFrom s ∧
      t.out = { ack := some .sent, tx := some frame, cpl := none, rxReqMax := 0, stBusy := false,
                stHs := s.hsState, stCancelled := s.cancelQ, stFill := s.fill }

/-- R140: an idle block that is not ESTABLISHED sends HELLO, awaits the reply and begins its one
receive; the buffer is not cleared. -/
def Obligations.HshakeAccepted : Prop :=
  ∀ s : State, s.faState = .idle → s.input.rxCount = 0 → s.hsState ≠ .established →
    ∃ t, exec .hshake s = .next t ∧ t.hsState = .awaiting ∧ t.faState = .active ∧ t.fill = 0 ∧ t.buf = s.buf ∧
      t.cancelQ = (s.cancelQ || s.input.cancelIn) ∧ t.AdvancesFrom s ∧
      t.out = { ack := some .started, tx := some (helloFrame s.cfg), cpl := none, rxReqMax := 0, stBusy := false,
                stHs := s.hsState, stCancelled := s.cancelQ, stFill := s.fill }

/-- R142: HSHAKE on an idle ESTABLISHED block has no effect but ERR_STATE. -/
def Obligations.HshakeWhileEstablished : Prop :=
  ∀ s : State, s.faState = .idle → s.input.rxCount = 0 → s.hsState = .established →
    ∃ t, exec .hshake s = .next t ∧ t.faState = s.faState ∧ t.fill = s.fill ∧ t.buf = s.buf ∧
      t.hsState = s.hsState ∧ t.cancelQ = (s.cancelQ || s.input.cancelIn) ∧ t.AdvancesFrom s ∧
      t.out = { ack := some .errState, tx := none, cpl := none, rxReqMax := 0, stBusy := false,
                stHs := s.hsState, stCancelled := s.cancelQ, stFill := s.fill }

/-- R167 and R186: while busy, RECV, SEND and HSHAKE do what NOP does in that cycle and report ERR_BUSY;
a reserved op does what NOP does, busy or not, and reports ERR_ILLEGAL. -/
def Obligations.RejectedOpsActAsNop : Prop :=
  ∀ s t : State, exec .nop s = .next t →
    (s.faState = .active →
      exec .recv s = .next { t with out := { t.out with ack := some .errBusy } } ∧
      exec .hshake s = .next { t with out := { t.out with ack := some .errBusy } } ∧
      (∀ (ptype cmd nparams : Byte) (params : List Nat) (data : List Byte),
        exec (.send ptype cmd nparams params data) s
          = .next { t with out := { t.out with ack := some .errBusy } })) ∧
    (∀ code : BitVec 2, exec (.reserved code) s = .next { t with out := { t.out with ack := some .errIllegal } })

/-! ## The poll and how a receive ends (40_frame_accumulator.md, 42_handshake.md) -/

/-- R92 and R146: a cancelled poll requests and takes no byte, discards the partial frame, leaves the
buffer as it is, and ends the receive with CANCELLED, for every op of that cycle and whatever the cursor is; a
byte delivered beside it has no step. -/
def Obligations.CancelledPollEndsReceive : Prop :=
  ∀ (i : Instr) (s : State), i ≠ .rst → s.faState = .active → (s.cancelQ || s.cancelPin i) = true →
    (s.input.rxCount = 0 →
      ∃ t, exec i s = .next t ∧ t.faState = .idle ∧ t.fill = 0 ∧ t.buf = s.buf ∧ t.cancelQ = true ∧
        t.AdvancesFrom s ∧ t.out.rxReqMax = 0 ∧ t.out.tx = none ∧
        (s.hsState ≠ .awaiting → t.hsState = s.hsState ∧ t.out.cpl = some (.recvDone .cancelled)) ∧
        (s.hsState = .awaiting →
          t.hsState = .failed ∧ t.out.cpl = some (.hsDone .cancelled false .cancelled none))) ∧
    (0 < s.input.rxCount → exec i s = .refused .rxOverrun)

/-- R93 and R95: a poll that does not fill the frame requests `min(RX_LANES, L - fill)`, stores the
received bytes at the cursor in stream order, advances the cursor, and changes no other byte; with no
byte received nothing changes and the block stays active. -/
def Obligations.PollAppends : Prop :=
  ∀ (i : Instr) (s : State), i ≠ .rst → s.Inv → s.Reads i →
    s.input.rxCount ≤ min s.cfg.rxLanes (s.cfg.frameSize - s.fill) → s.fill + s.input.rxCount < s.cfg.frameSize →
    ∃ t, exec i s = .next t ∧ t.faState = .active ∧ t.fill = s.fill + s.input.rxCount ∧ t.hsState = s.hsState ∧
      t.cancelQ = false ∧ t.AdvancesFrom s ∧ t.out.cpl = none ∧ t.out.tx = none ∧
      t.out.rxReqMax = min s.cfg.rxLanes (s.cfg.frameSize - s.fill) ∧
      (∀ j, j < s.input.rxCount → t.buf.get (s.fill + j) = s.input.rxBytes.getD j 0) ∧
      (∀ a, a < s.fill ∨ s.fill + s.input.rxCount ≤ a → t.buf.get a = s.buf.get a)

/-- R94 and R99 for a receive that RECV began: the poll that fills the frame deserializes exactly the L
bytes that stand in the buffer after the append, reports the verdict (with the packet when it is OK),
and leaves the accumulator idle and the session as it was. -/
def Obligations.PollCompletesFrame : Prop :=
  ∀ (i : Instr) (s : State), i ≠ .rst → s.Inv → s.Reads i → s.hsState ≠ .awaiting →
    s.input.rxCount ≤ min s.cfg.rxLanes (s.cfg.frameSize - s.fill) → s.fill + s.input.rxCount = s.cfg.frameSize →
    ∃ t, exec i s = .next t ∧ t.faState = .idle ∧ t.fill = 0 ∧ t.hsState = s.hsState ∧ t.cancelQ = false ∧
      t.AdvancesFrom s ∧ t.out.tx = none ∧
      t.out.rxReqMax = min s.cfg.rxLanes (s.cfg.frameSize - s.fill) ∧
      t.out.cpl = some (.recvDone (deserialize s.cfg s.frameAfterAppend)) ∧
      (∀ k, k < s.cfg.frameSize → t.buf.get k = s.frameAfterAppend.getD k 0)

/-- R144 and R145: how the reply ends a handshake. Success is an OK packet of type RESPONSE and command
RESP_OK; every other ending, a cancelled poll among them, is FAILED with its reason, and the observed type is
given exactly when a packet was decoded. -/
def Obligations.HandshakeReply : Prop :=
  (∀ (i : Instr) (s : State), i ≠ .rst → s.Inv → s.Reads i → s.hsState = .awaiting →
    s.input.rxCount ≤ min s.cfg.rxLanes (s.cfg.frameSize - s.fill) → s.fill + s.input.rxCount = s.cfg.frameSize →
    ∃ t, exec i s = .next t ∧ t.faState = .idle ∧ t.fill = 0 ∧ t.cancelQ = false ∧ t.AdvancesFrom s ∧
      t.out.tx = none ∧ t.out.rxReqMax = min s.cfg.rxLanes (s.cfg.frameSize - s.fill) ∧
      (∀ k, k < s.cfg.frameSize → t.buf.get k = s.frameAfterAppend.getD k 0) ∧
      t.EndsHandshake s.cfg (deserialize s.cfg s.frameAfterAppend)) ∧
  (∀ (i : Instr) (s : State), i ≠ .rst → s.faState = .active → (s.cancelQ || s.cancelPin i) = true →
    s.hsState = .awaiting → s.input.rxCount = 0 → ∃ t, exec i s = .next t ∧ t.EndsHandshake s.cfg .cancelled)

/-- R170, for every state: the cycle of an op is refused exactly when `rx_count` exceeds `rx_req_max`, and for
no other reason. -/
def Obligations.RefusedExactlyOnOverrun : Prop :=
  ∀ (i : Instr) (s : State) (r : Refusal), exec i s = .refused r ↔
    r = .rxOverrun ∧
      (if i ≠ .rst ∧ s.Reads i then min s.cfg.rxLanes (s.cfg.frameSize - s.fill) else 0) < s.input.rxCount

/-- R170: where the contract holds, every op value, every operand value and every pin combination has a
step, from every state of the invariant R26; where the transport delivers more than `rx_req_max` (0 in a reset
cycle, an idle cycle and a cancelled poll), there is none. -/
def Obligations.EveryContractCycleSteps : Prop :=
  ∀ s : State, s.Inv → s.WordOk →
    (s.input.rxCount ≤ (if s.input.rst = true ∨ s.faState = .idle ∨ (s.cancelQ || s.input.cancelIn) = true then 0
      else min s.cfg.rxLanes (s.cfg.frameSize - s.fill)) → ∃ t, step s = .next t) ∧
    ((if s.input.rst = true ∨ s.faState = .idle ∨ (s.cancelQ || s.input.cancelIn) = true then 0
      else min s.cfg.rxLanes (s.cfg.frameSize - s.fill)) < s.input.rxCount → step s = .refused .rxOverrun)

/-- The model's one fault (log entry 9) is raised exactly by a poll whose cursor breaks (I1) of R26. -/
def Obligations.FaultExactlyOnBrokenCursor : Prop :=
  ∀ (i : Instr) (s : State) (r : Fault), exec i s = .fault r ↔
    r = .cursorOutOfRange ∧ i ≠ .rst ∧ s.Reads i ∧ s.cfg.frameSize ≤ s.fill ∧ s.input.rxCount = 0

/-! ## Whole-machine rules -/

/-- A step is the cycle of the operation the input ports present. That the inputs are the head of a list which the
cycle consumes, and that the parameters are a field no cycle changes, are the model's own (log entries 2 and 1). -/
def Obligations.StepRunsDecodedCycle : Prop :=
  (∀ (s : State) (i : Instr), decodeCycle s.cfg s.input = .ok i → step s = exec i s) ∧
  (∀ (s : State) (inp : CycleIn) (rest : List CycleIn), s.stimulus = inp :: rest → s.input = inp) ∧
  (∀ (s t : State) (i : Instr), exec i s = .next t → t.stimulus = s.stimulus.tail ∧ t.cfg = s.cfg)

/-- R26 and R40: (I1), (I2), the state part of (I3) and the buffer's canonical form hold after reset. -/
def Obligations.ResetMeetsInvariant : Prop := State.reset.Inv

/-- R26 and R40: every step keeps (I1), (I2), the state part of (I3) and the buffer's canonical form. -/
def Obligations.StepKeepsInvariant : Prop := ∀ s t : State, s.Inv → step s = .next t → t.Inv

/-- The rest of (I3) of R26, and R143: RECV begins a receive outside AWAITING, HSHAKE begins one inside
it, and while a receive goes on `hs_state` does not move, so AWAITING tells the two kinds apart. -/
def Obligations.ReceiveKeepsItsOwner : Prop :=
  ∀ (i : Instr) (s t : State), s.Inv → exec i s = .next t → t.faState = .active →
    (s.faState = .active → t.hsState = s.hsState) ∧
    (s.faState = .idle → (i = .recv ∧ t.hsState ≠ .awaiting) ∨ (i = .hshake ∧ t.hsState = .awaiting))

/-- R149: the only transitions of `hs_state`. -/
def Obligations.HandshakeTransitions : Prop :=
  ∀ (i : Instr) (s t : State), s.Inv → exec i s = .next t →
    (i = .rst ∧ t.hsState = .idle) ∨
    (i ≠ .rst ∧ t.hsState = s.hsState ∧
      (s.hsState = .awaiting → t.faState = .active ∧ t.out.cpl = none)) ∨
    (i = .hshake ∧ s.faState = .idle ∧ (s.hsState = .idle ∨ s.hsState = .failed) ∧ t.hsState = .awaiting ∧
      t.out.ack = some .started ∧ t.out.tx = some (helloFrame s.cfg)) ∨
    (i ≠ .rst ∧ s.hsState = .awaiting ∧ t.hsState = .established ∧
      t.out.cpl = some (.hsDone .ok true .none (some s.cfg.ptResponse))) ∨
    (i ≠ .rst ∧ s.hsState = .awaiting ∧ t.hsState = .failed ∧
      ∃ v reason observed, t.out.cpl = some (.hsDone v false reason observed))

/-- R174: the only transitions of `fa_state`, with the cursor each leaves. -/
def Obligations.AccumulatorTransitions : Prop :=
  ∀ (i : Instr) (s t : State), s.Inv → exec i s = .next t →
    (i = .rst ∧ t.faState = .idle ∧ t.fill = 0) ∨
    (i ≠ .rst ∧ s.faState = .idle ∧ t.faState = .active ∧ t.fill = 0 ∧ (i = .recv ∨ i = .hshake) ∧
      t.out.ack = some .started) ∨
    (i ≠ .rst ∧ s.faState = .idle ∧ t.faState = .idle ∧ t.fill = 0 ∧ t.out.ack ≠ some .started) ∨
    (i ≠ .rst ∧ s.faState = .active ∧ t.faState = .idle ∧ t.fill = 0 ∧
      ((s.cancelQ || s.cancelPin i) = true ∨ s.fill + s.input.rxCount = s.cfg.frameSize)) ∨
    (i ≠ .rst ∧ s.Reads i ∧ s.fill + s.input.rxCount < s.cfg.frameSize ∧ t.faState = .active ∧
      t.fill = s.fill + s.input.rxCount)

/-- R168 and R169: a frame is transmitted only from an idle start and a completion is driven only from an
active one, so never both in one cycle; an ack beside a completion is ERR_BUSY or ERR_ILLEGAL. -/
def Obligations.PhasesDoNotInterfere : Prop :=
  ∀ (i : Instr) (s t : State), exec i s = .next t →
    (t.out.tx ≠ none → s.faState = .idle) ∧ (t.out.cpl ≠ none → s.faState = .active) ∧
    (t.out.cpl ≠ none → t.out.tx = none ∧
      (t.out.ack = none ∨ t.out.ack = some .errBusy ∨ t.out.ack = some .errIllegal))

/-- R68 and R163: which ack a cycle with a step drives, in the order of R163: none for a pin or NOP,
ERR_ILLEGAL for a reserved op, ERR_BUSY while busy, the op's own check, then acceptance. -/
def Obligations.AckByPrecedence : Prop :=
  ∀ (i : Instr) (s t : State), exec i s = .next t →
    match i with
    | .nop => t.out.ack = none
    | .rst => t.out.ack = none
    | .cancel => t.out.ack = none
    | .reserved _ => t.out.ack = some .errIllegal
    | .recv => t.out.ack = if s.faState = .active then some .errBusy else some .started
    | .send _ _ nparams _ _ =>
      t.out.ack = if s.faState = .active then some .errBusy
        else if s.cfg.paramCount < nparams.toNat then some .errParamCount else some .sent
    | .hshake =>
      t.out.ack = if s.faState = .active then some .errBusy
        else if s.hsState = .established then some .errState else some .started

/-- R72: the status outputs of every cycle show the state at its start. -/
def Obligations.StatusShowsCycleStart : Prop :=
  ∀ (i : Instr) (s t : State), exec i s = .next t →
    t.out.stBusy = decide (s.faState = .active) ∧ t.out.stHs = s.hsState ∧ t.out.stCancelled = s.cancelQ ∧
      t.out.stFill = s.fill

/-- R148: an open session stays open until a reset cycle. -/
def Obligations.SessionStaysOpen : Prop :=
  ∀ s t : State, s.hsState = .established → step s = .next t → s.input.rst = false → t.hsState = .established

/-- R31 and R98: a receive ends, with a completion, only when it is cancelled or its L bytes are in. -/
def Obligations.NoEarlyCompletion : Prop :=
  ∀ (i : Instr) (s t : State), exec i s = .next t → t.out.cpl ≠ none →
    s.faState = .active ∧ t.faState = .idle ∧
      ((s.cancelQ || s.cancelPin i) = true ∨ s.fill + s.input.rxCount = s.cfg.frameSize)

/-- R40 and R175, the frame of memory: outside a reset cycle no byte changes but those a poll stores at
the cursor, for every op. -/
def Obligations.OnlyThePollStores : Prop :=
  ∀ (i : Instr) (s t : State), i ≠ .rst → s.buf.wf = true → exec i s = .next t →
    ∀ a, ¬ (s.Reads i ∧ s.fill ≤ a ∧ a < s.fill + s.input.rxCount) → t.buf.get a = s.buf.get a

/-- R66: the lanes of `rx_bytes` at and above `rx_count` do not affect a cycle. -/
def Obligations.LanesPastCountIgnored : Prop :=
  ∀ (s : State) (inp : CycleIn) (bytes : List Byte) (rest : List CycleIn),
    s.stimulus = inp :: rest → (∀ j, j < inp.rxCount → inp.rxBytes.getD j 0 = bytes.getD j 0) →
    step { s with stimulus := { inp with rxBytes := bytes } :: rest } = step s

/-- R23: bytes at and above the cursor are unobservable. Two states that differ only there take the same
step, with the same outputs, and again differ only at and above the cursor. -/
def Obligations.StaleBytesUnobservable : Prop :=
  ∀ (s t : State) (buf' : Memory), s.buf.wf = true → Memory.wf buf' = true →
    (∀ a, a < s.fill → Memory.get buf' a = s.buf.get a) → step s = .next t →
    ∃ t', step { s with buf := buf' } = .next t' ∧ t' = { t with buf := t'.buf } ∧
      ∀ a, a < t.fill → t'.buf.get a = t.buf.get a

/-- R23 and R42, the step behind R97: `buf[0..fill)` holds the bytes the receive has taken so far. A poll
appends what it receives, and a receive that begins has taken none. -/
def Obligations.BufferHoldsTakenBytes : Prop :=
  ∀ (i : Instr) (s t : State) (taken : List Byte), s.Inv → s.HoldsTaken taken → exec i s = .next t →
    t.faState = .active → t.HoldsTaken (if s.faState = .active then taken ++ received s.input else [])

/-- R97: however the transport cuts the stream into chunks, and whatever ops are presented meanwhile, an
uncancelled receive, of RECV or of a handshake, completes in the first cycle in which the running total reaches L,
with the verdict of exactly the first L bytes of the stream. The stimulus list is the model's (log entry 2). -/
def Obligations.ChunkingInvariance : Prop :=
  ∀ (s : State) (inputs rest : List CycleIn),
    s.stimulus = inputs ++ rest → s.faState = .active → s.fill = 0 → s.cancelQ = false → s.BufferOk →
    (∀ inp ∈ inputs, inp.rst = false ∧ inp.cancelIn = false ∧ inp.cmdw < 2 ^ s.cfg.cmdwBits ∧
      inp.rxCount ≤ s.cfg.rxLanes) →
    (∀ k, k < inputs.length → ((inputs.take k).flatMap received).length < s.cfg.frameSize) →
    (inputs.flatMap received).length = s.cfg.frameSize →
    (∀ k, 0 < k → k < inputs.length → ∃ t, Host.Core.run Sys2Proof.core k s = .next t ∧ t.out.cpl = none ∧
      t.faState = .active ∧ t.fill = ((inputs.take k).flatMap received).length ∧ t.hsState = s.hsState) ∧
    (∃ t, Host.Core.run Sys2Proof.core inputs.length s = .next t ∧ t.faState = .idle ∧ t.fill = 0 ∧
      (s.hsState ≠ .awaiting → t.hsState = s.hsState ∧
        t.out.cpl = some (.recvDone (deserialize s.cfg (inputs.flatMap received)))) ∧
      (s.hsState = .awaiting → t.EndsHandshake s.cfg (deserialize s.cfg (inputs.flatMap received))))

/-- R98 and R95: while the transport delivers nothing and nothing cancels, a receive waits for any number
of cycles, with its buffer, its cursor and its owner unchanged. -/
def Obligations.ReceiveWaitsForBytes : Prop :=
  ∀ (s : State) (n : Nat) (rest : List CycleIn), s.Inv → s.faState = .active → s.cancelQ = false →
    s.stimulus = List.replicate n (withStimulus s.cfg .nop [] false false) ++ rest →
    ∃ t, Host.Core.run Sys2Proof.core n s = .next t ∧ t.faState = .active ∧ t.fill = s.fill ∧ t.buf = s.buf ∧
      t.hsState = s.hsState ∧ t.cancelQ = false ∧ t.stimulus = rest ∧ (0 < n → t.out.cpl = none)

/-- R206: once the flag is set, a RECV is accepted and the next cycle ends it with CANCELLED, and an HSHAKE
is accepted, sends HELLO, and the next cycle ends it FAILED with reason CANCELLED, whatever op that cycle presents. -/
def Obligations.CancelledBlockEndsEveryReceive : Prop :=
  ∀ (s : State) (first second : CycleIn) (rest : List CycleIn),
    s.faState = .idle → s.cancelQ = true → s.stimulus = first :: second :: rest →
    first.rst = false → first.rxCount = 0 → second.rst = false → second.rxCount = 0 →
    second.cmdw < 2 ^ s.cfg.cmdwBits →
    (first.cmdw = 1 → s.hsState ≠ .awaiting →
      ∃ t u, step s = .next t ∧ t.out.ack = some .started ∧ step t = .next u ∧ u.faState = .idle ∧
        u.hsState = s.hsState ∧ u.cancelQ = true ∧ u.out.cpl = some (.recvDone .cancelled)) ∧
    (first.cmdw = 3 → s.hsState ≠ .established →
      ∃ t u, step s = .next t ∧ t.out.ack = some .started ∧ t.out.tx = some (helloFrame s.cfg) ∧
        step t = .next u ∧ u.faState = .idle ∧ u.hsState = .failed ∧ u.cancelQ = true ∧
        u.out.cpl = some (.hsDone .cancelled false .cancelled none))

/-! ## The code tables and the output pins (R68 to R72, R83, R171) -/

/-- R83, with the ack codes of R68: the code tables, and the values that no code takes. Which pin carries which
code is ValidChannelsDrive. -/
def Obligations.CodeNumbers : Prop :=
  AckCode.code .started = 0 ∧ AckCode.code .sent = 1 ∧ AckCode.code .errParamCount = 2 ∧
  AckCode.code .errBusy = 3 ∧ AckCode.code .errState = 4 ∧ AckCode.code .errIllegal = 5 ∧
  Verdict.code .ok = 0 ∧ Verdict.code .badPacket = 1 ∧ Verdict.code .badChecksum = 2 ∧ Verdict.code .cancelled = 3 ∧
  HsReason.code .none = 0 ∧ HsReason.code .wrongType = 1 ∧ HsReason.code .wrongCmd = 2 ∧
  HsReason.code .badPacket = 3 ∧ HsReason.code .badChecksum = 4 ∧ HsReason.code .cancelled = 5 ∧
  HsState.code .idle = 0 ∧ HsState.code .awaiting = 1 ∧ HsState.code .established = 2 ∧ HsState.code .failed = 3 ∧
  FaState.code .idle = 0 ∧ FaState.code .active = 1 ∧
  (∀ a : AckCode, a.code ≠ 6 ∧ a.code ≠ 7) ∧ (∀ r : HsReason, r.code ≠ 6 ∧ r.code ≠ 7) ∧
  (∀ r, Completion.kindCode (.recvDone r) = 0) ∧ (∀ v e r o, Completion.kindCode (.hsDone v e r o) = 1)

/-- R68 to R71 and R171: a channel that is not valid drives zeros, a bad verdict and a handshake's end
drive no packet, and an absent observed type is driven 0. -/
def Obligations.InvalidChannelsDriveZero : Prop :=
  ∀ (c : Config) (o : Outputs),
    (o.ack = none → (o.pins c).ackValid = false ∧ (o.pins c).ackCode = 0) ∧
    (o.tx = none → (o.pins c).txValid = false ∧ (o.pins c).txFrame = List.replicate c.frameSize 0) ∧
    (o.cpl = none → (o.pins c).cplValid = false ∧ (o.pins c).cplKind = 0 ∧ (o.pins c).cplVerdict = 0 ∧
      (o.pins c).hsEstablished = false ∧ (o.pins c).hsReason = 0) ∧
    ((∀ pkt, o.cpl ≠ some (.recvDone (.ok pkt))) → (o.pins c).pktPtype = 0 ∧ (o.pins c).pktCmd = 0 ∧
      (o.pins c).pktParams = List.replicate c.paramCount 0 ∧ (o.pins c).pktData = List.replicate c.dataLen 0) ∧
    ((∀ v e r b, o.cpl ≠ some (.hsDone v e r (some b))) →
      (o.pins c).hsObsValid = false ∧ (o.pins c).hsObsType = 0)

/-- R68 to R72: what each channel drives when it is valid, and the request and status pins, pin by pin. -/
def Obligations.ValidChannelsDrive : Prop :=
  ∀ (c : Config) (o : Outputs),
    (∀ a, o.ack = some a → (o.pins c).ackValid = true ∧ (o.pins c).ackCode = a.code) ∧
    (∀ f, o.tx = some f → (o.pins c).txValid = true ∧ (o.pins c).txFrame = f) ∧
    (∀ pkt, o.cpl = some (.recvDone (.ok pkt)) →
      (o.pins c).cplValid = true ∧ (o.pins c).cplKind = 0 ∧ (o.pins c).cplVerdict = Verdict.code .ok ∧
      (o.pins c).pktPtype = pkt.ptype ∧ (o.pins c).pktCmd = pkt.cmd ∧ (o.pins c).pktParams = pkt.params ∧
      (o.pins c).pktData = pkt.data) ∧
    (o.cpl = some (.recvDone .badPacket) →
      (o.pins c).cplValid = true ∧ (o.pins c).cplKind = 0 ∧ (o.pins c).cplVerdict = Verdict.code .badPacket) ∧
    (o.cpl = some (.recvDone .badChecksum) →
      (o.pins c).cplValid = true ∧ (o.pins c).cplKind = 0 ∧ (o.pins c).cplVerdict = Verdict.code .badChecksum) ∧
    (o.cpl = some (.recvDone .cancelled) →
      (o.pins c).cplValid = true ∧ (o.pins c).cplKind = 0 ∧ (o.pins c).cplVerdict = Verdict.code .cancelled) ∧
    (∀ v established reason observed, o.cpl = some (.hsDone v established reason observed) →
      (o.pins c).cplValid = true ∧ (o.pins c).cplKind = 1 ∧ (o.pins c).cplVerdict = v.code ∧
      (o.pins c).hsEstablished = established ∧ (o.pins c).hsReason = reason.code ∧
      (o.pins c).hsObsValid = observed.isSome ∧ ∀ ptype, observed = some ptype → (o.pins c).hsObsType = ptype) ∧
    (o.pins c).rxReqMax = o.rxReqMax ∧ (o.pins c).stBusy = o.stBusy ∧ (o.pins c).stHs = o.stHs.code ∧
    (o.pins c).stCancelled = o.stCancelled ∧ (o.pins c).stFill = o.stFill
end

