-- ==== Sys2Proof/Laws/Codec.lean ====
section
/-! SUPPORT. The lengths and offsets of the codec: what stands where in a frame, and the algebra of the
checksum. -/

namespace Sys2Proof.Machine

/-! ## Sizes -/

theorem payloadSize_eq (c : Config) : c.payloadSize = 2 + c.paramLen * c.paramCount + c.dataLen := rfl

theorem frameSize_eq (c : Config) : c.frameSize = c.magicLen + c.payloadSize + 1 := rfl

theorem frameSize_pos (c : Config) : 0 < c.frameSize := Nat.succ_pos _

/-- The payload's end, as the rules write it: `F[MAGIC_LEN..L-1)`. -/
theorem frameSize_sub (c : Config) : c.frameSize - (c.magicLen + 1) = c.payloadSize := by
  rw [frameSize_eq]; omega

theorem paramOffset_eq (c : Config) (i : Nat) : c.paramOffset i = c.magicLen + (2 + c.paramLen * i) := by
  simp only [Config.paramOffset]; omega

theorem dataOffset_eq (c : Config) (j : Nat) :
    c.dataOffset j = c.magicLen + (2 + c.paramLen * c.paramCount + j) := by
  simp only [Config.dataOffset]; omega

/-- Byte k of parameter i lies inside the parameters of the payload. -/
theorem param_index_lt {n i k C : Nat} (hi : i < C) (hk : k < n) : n * i + k < n * C := by
  have : n * (i + 1) ≤ n * C := Nat.mul_le_mul_left n hi
  rw [Nat.mul_add] at this; omega

/-! ## Little-endian fields -/

@[simp] theorem leBytes_length (n v : Nat) : (leBytes n v).length = n := by
  induction n generalizing v with
  | zero => rfl
  | succ n ih => simp [leBytes, ih]

/-- Byte k of a little-endian field (R43). -/
theorem leBytes_getD (v : Nat) {n k : Nat} (hk : k < n) : (leBytes n v).getD k 0 = BitVec.ofNat 8 (v / 256 ^ k) := by
  induction n generalizing v k with
  | zero => omega
  | succ n ih =>
    cases k with
    | zero => simp [leBytes]
    | succ k =>
      rw [leBytes, List.getD_cons_succ, ih _ (by omega), Nat.div_div_eq_div_mul, Nat.pow_succ, Nat.mul_comm 256]

theorem unleBytes_lt (bs : List Byte) : unleBytes bs < 256 ^ bs.length := by
  induction bs with
  | nil => simp [unleBytes]
  | cons b bs ih =>
    have hb := b.isLt
    simp only [unleBytes, List.length_cons, Nat.pow_succ]
    omega

/-- Digit k of the value of little-endian bytes is byte k (R43). -/
theorem unleBytes_digit (bs : List Byte) {k : Nat} (hk : k < bs.length) :
    unleBytes bs / 256 ^ k % 256 = (bs.getD k 0).toNat := by
  induction bs generalizing k with
  | nil => simp at hk
  | cons b bs ih =>
    have hb := b.isLt
    cases k with
    | zero => simp only [unleBytes, Nat.pow_zero, Nat.div_one, List.getD_cons_zero]; omega
    | succ k =>
      rw [List.getD_cons_succ, ← ih (by simpa using hk), unleBytes, Nat.pow_succ, Nat.mul_comm (256 ^ k),
        ← Nat.div_div_eq_div_mul, Nat.add_mul_div_left _ _ (by decide), Nat.div_eq_of_lt hb, Nat.zero_add]

/-- `unleBytes` undoes `leBytes` on a value that fits (R10). -/
theorem unleBytes_leBytes {n v : Nat} (h : v < 256 ^ n) : unleBytes (leBytes n v) = v := by
  induction n generalizing v with
  | zero => simp only [leBytes, unleBytes]; omega
  | succ n ih =>
    rw [leBytes, unleBytes, ih (by rw [Nat.pow_succ] at h; omega)]
    simp only [BitVec.toNat_ofNat]
    omega

/-! ## Fields in the instance's byte order -/

@[simp] theorem fieldBytes_length (o : ByteOrder) (n v : Nat) : (fieldBytes o n v).length = n := by
  cases o <;> simp [fieldBytes]

theorem getD_reverse (bs : List Byte) {k : Nat} (hk : k < bs.length) :
    bs.reverse.getD k 0 = bs.getD (bs.length - 1 - k) 0 := by
  simp [List.getD, List.getElem?_reverse hk]

/-- Byte k of a field carries digit k of its value, or the k-th digit from the top (R43, M6). -/
theorem fieldBytes_getD (o : ByteOrder) (v : Nat) {n k : Nat} (hk : k < n) :
    (fieldBytes o n v).getD k 0 = BitVec.ofNat 8 (v / 256 ^ (if o = .little then k else n - 1 - k)) := by
  cases o with
  | little => exact leBytes_getD v hk
  | big =>
    rw [fieldBytes, getD_reverse _ (by simpa using hk), leBytes_length, leBytes_getD v (by omega)]
    rfl

theorem fieldValue_lt (o : ByteOrder) (bs : List Byte) : fieldValue o bs < 256 ^ bs.length := by
  cases o with
  | little => exact unleBytes_lt bs
  | big => simpa [fieldValue] using unleBytes_lt bs.reverse

/-- The byte at offset k of a field is the digit of its value that its place gives it (R43, M6). -/
theorem fieldValue_digit (o : ByteOrder) (bs : List Byte) {k : Nat} (hk : k < bs.length) :
    fieldValue o bs / 256 ^ (if o = .little then k else bs.length - 1 - k) % 256 = (bs.getD k 0).toNat := by
  cases o with
  | little => exact unleBytes_digit bs hk
  | big =>
    have e := unleBytes_digit bs.reverse (k := bs.length - 1 - k) (by rw [List.length_reverse]; omega)
    rw [getD_reverse _ (by omega), show bs.length - 1 - (bs.length - 1 - k) = k by omega] at e
    exact e

/-- Reading a field undoes writing it on a value that fits (R10). -/
theorem fieldValue_fieldBytes (o : ByteOrder) {n v : Nat} (h : v < 256 ^ n) :
    fieldValue o (fieldBytes o n v) = v := by
  cases o with
  | little => exact unleBytes_leBytes h
  | big => rw [fieldBytes, fieldValue, List.reverse_reverse]; exact unleBytes_leBytes h

/-- A frame begins with the bytes of `v` exactly when each of its first bytes is that byte. -/
theorem take_eq_fieldBytes (o : ByteOrder) {f : List Byte} {n : Nat} (hf : n ≤ f.length) (v : Nat) :
    f.take n = fieldBytes o n v ↔
      ∀ k, k < n → f.getD k 0 = BitVec.ofNat 8 (v / 256 ^ (if o = .little then k else n - 1 - k)) := by
  constructor
  · intro h k hk
    rw [← fieldBytes_getD o v hk, ← h]
    simp [List.getD, hk]
  · intro h
    apply List.ext_getElem
    · simp; omega
    · intro k hk hk2
      have hkn : k < n := by simpa using hk2
      have e := h k hkn
      rw [← fieldBytes_getD o v hkn, List.getD_eq_getElem _ _ (show k < f.length by omega),
        List.getD_eq_getElem _ _ hk2] at e
      simpa using e

/-! ## The checksum -/

theorem fold_comm (alg : ChecksumAlg) (a b : Byte) : fold alg a b = fold alg b a := by
  cases alg
  · exact BitVec.xor_comm a b
  · exact BitVec.add_comm a b

theorem fold_assoc (alg : ChecksumAlg) (a b x : Byte) : fold alg (fold alg a b) x = fold alg a (fold alg b x) := by
  cases alg
  · exact BitVec.xor_assoc a b x
  · exact BitVec.add_assoc a b x

@[simp] theorem fold_zero (alg : ChecksumAlg) (a : Byte) : fold alg a 0#8 = a := by cases alg <;> simp [fold]

@[simp] theorem zero_fold (alg : ChecksumAlg) (a : Byte) : fold alg 0#8 a = a := by cases alg <;> simp [fold]

/-- The fold loses no byte (M1: a change of one byte changes it). -/
theorem fold_right_cancel (alg : ChecksumAlg) {a b x : Byte} : fold alg a x = fold alg b x ↔ a = b := by
  cases alg <;> simp [fold]

theorem fold_left_cancel (alg : ChecksumAlg) {a b x : Byte} : fold alg x a = fold alg x b ↔ a = b := by
  cases alg <;> simp [fold]

/-- The checksum as a left fold from 0x00. -/
theorem checksum_eq_foldl (alg : ChecksumAlg) (bs : List Byte) : checksum alg bs = bs.foldl (fold alg) 0 := by
  have general : ∀ (bs : List Byte) (z : Byte), bs.foldl (fold alg) z = fold alg z (checksum alg bs) := by
    intro bs
    induction bs with
    | nil => intro z; simp [checksum]
    | cons b bs ih => intro z; rw [List.foldl_cons, ih, checksum, fold_assoc]
  rw [general]; simp

/-- The checksum does not depend on byte positions (R44, C1). -/
theorem checksum_perm (alg : ChecksumAlg) {a b : List Byte} (h : a.Perm b) : checksum alg a = checksum alg b := by
  induction h with
  | nil => rfl
  | cons x _ ih => simp [checksum, ih]
  | swap x y l => simp only [checksum]; rw [← fold_assoc, fold_comm alg y x, fold_assoc]
  | trans _ _ ih1 ih2 => exact ih1.trans ih2

/-- Replacing one byte keeps the checksum exactly when it replaces the byte by itself. -/
theorem checksum_set (alg : ChecksumAlg) (bs : List Byte) {k : Nat} (hk : k < bs.length) (b : Byte) :
    checksum alg (bs.set k b) = checksum alg bs ↔ b = bs.getD k 0 := by
  induction bs generalizing k with
  | nil => simp at hk
  | cons x bs ih =>
    cases k with
    | zero => simp [checksum, fold_right_cancel]
    | succ k => simpa [checksum, fold_left_cancel] using ih (show k < bs.length by simpa using hk)

/-! ## The payload -/

@[simp] theorem paramBytes_length (c : Config) (ps : List Nat) : (paramBytes c ps).length = c.paramLen * ps.length := by
  induction ps with
  | nil => rfl
  | cons p ps ih =>
    have hcons : paramBytes c (p :: ps) = fieldBytes c.byteOrder c.paramLen p ++ paramBytes c ps := by simp [paramBytes]
    rw [hcons, List.length_append, ih, fieldBytes_length, List.length_cons, Nat.mul_add]; omega

@[simp] theorem paddedParams_length (c : Config) (n : Nat) (p : List Nat) :
    (paddedParams c n p).length = c.paramCount := by
  simp [paddedParams]

theorem paddedParams_getD (c : Config) (n : Nat) (p : List Nat) {i : Nat} (hi : i < c.paramCount) :
    (paddedParams c n p).getD i 0 = if i < n then p.getD i 0 else 0 := by
  simp [paddedParams, List.getD, hi]

@[simp] theorem packetData_length (c : Config) (ptype : Byte) (d : List Byte) :
    (packetData c ptype d).length = c.dataLen := by
  simp [packetData]

@[simp] theorem encodePacket_length (c : Config) (ptype cmd : Byte) (n : Nat) (p : List Nat) (d : List Byte) :
    (encodePacket c ptype cmd n p d).length = c.payloadSize := by
  simp [encodePacket, payloadSize_eq]; omega

/-- A byte of a slice, by its offset in the whole. -/
theorem getD_drop_take (f : List Byte) (a : Nat) {n k : Nat} (hk : k < n) :
    ((f.drop a).take n).getD k 0 = f.getD (a + k) 0 := by
  simp [List.getD, List.getElem?_drop, hk]

/-- Byte k of parameter i of the parameter bytes (R110). -/
theorem paramBytes_getD (c : Config) (ps : List Nat) {i k : Nat} (hi : i < ps.length) (hk : k < c.paramLen) :
    (paramBytes c ps).getD (c.paramLen * i + k) 0 = (fieldBytes c.byteOrder c.paramLen (ps.getD i 0)).getD k 0 := by
  induction ps generalizing i with
  | nil => simp at hi
  | cons p ps ih =>
    have hcons : paramBytes c (p :: ps) = fieldBytes c.byteOrder c.paramLen p ++ paramBytes c ps := by simp [paramBytes]
    rw [hcons]
    cases i with
    | zero =>
      rw [Nat.mul_zero, Nat.zero_add, List.getD_cons_zero]
      simp only [List.getD]
      rw [List.getElem?_append_left (by simpa using hk)]
    | succ i =>
      rw [List.getD_cons_succ, ← ih (by simpa using hi)]
      simp only [List.getD]
      rw [Nat.mul_add, List.getElem?_append_right (by simp; omega)]
      simp [show c.paramLen * i + c.paramLen + k - c.paramLen = c.paramLen * i + k by omega]

/-- Byte k of parameter i of a payload (R110). -/
theorem encodePacket_getD_param (c : Config) (ptype cmd : Byte) (n : Nat) (p : List Nat) (d : List Byte)
    {i k : Nat} (hi : i < c.paramCount) (hk : k < c.paramLen) :
    (encodePacket c ptype cmd n p d).getD (2 + c.paramLen * i + k) 0
      = (fieldBytes c.byteOrder c.paramLen (if i < n then p.getD i 0 else 0)).getD k 0 := by
  have hlt := param_index_lt hi hk
  rw [← paddedParams_getD c n p hi, ← paramBytes_getD c _ (by simpa using hi) hk]
  simp only [encodePacket, List.append_assoc, List.getD]
  rw [List.getElem?_append_right (by simp; omega), List.getElem?_append_left (by simp; omega)]
  simp [show 2 + c.paramLen * i + k - 2 = c.paramLen * i + k by omega]

/-- Data byte j of a payload (R110). -/
theorem encodePacket_getD_data (c : Config) (ptype cmd : Byte) (n : Nat) (p : List Nat) (d : List Byte)
    {j : Nat} (hj : j < c.dataLen) :
    (encodePacket c ptype cmd n p d).getD (2 + c.paramLen * c.paramCount + j) 0
      = if ptype = c.ptMessage then d.getD j 0 else 0 := by
  simp only [encodePacket, List.append_assoc, List.getD]
  rw [List.getElem?_append_right (by simp; omega), List.getElem?_append_right (by simp; omega)]
  simp [show 2 + c.paramLen * c.paramCount + j - 2 - c.paramLen * c.paramCount = j by omega, packetData, hj]

/-! ## What stands where in an envelope -/

theorem envelope_length (c : Config) {payload : List Byte} (h : payload.length = c.payloadSize) :
    (envelope c payload).length = c.frameSize := by
  simp [envelope, h, frameSize_eq]; omega

theorem envelope_take (c : Config) (payload : List Byte) :
    (envelope c payload).take c.magicLen = fieldBytes c.byteOrder c.magicLen c.magic := by
  simp only [envelope, List.append_assoc]
  exact List.take_left' (fieldBytes_length _ _ _)

theorem envelope_drop (c : Config) (payload : List Byte) :
    (envelope c payload).drop c.magicLen = payload ++ [checksum c.checksum payload] := by
  simp only [envelope, List.append_assoc]
  exact List.drop_left' (fieldBytes_length _ _ _)

theorem payloadOf_envelope (c : Config) {payload : List Byte} (h : payload.length = c.payloadSize) :
    payloadOf c (envelope c payload) = payload := by
  simp only [payloadOf, envelope_drop]
  exact List.take_left' h

theorem envelope_getD_magic (c : Config) (payload : List Byte) {k : Nat} (hk : k < c.magicLen) :
    (envelope c payload).getD k 0 = BitVec.ofNat 8
      (c.magic / 256 ^ (if c.byteOrder = .little then k else c.magicLen - 1 - k)) :=
  (take_eq_fieldBytes _ (by simp [envelope]) _).mp (envelope_take c payload) k hk

/-- A byte of the payload, by its frame offset. -/
theorem envelope_getD_payload (c : Config) {payload : List Byte} {k : Nat} (hk : k < payload.length) :
    (envelope c payload).getD (c.magicLen + k) 0 = payload.getD k 0 := by
  have e : (envelope c payload).getD (c.magicLen + k) 0 = ((envelope c payload).drop c.magicLen).getD k 0 := by
    simp [List.getD, List.getElem?_drop]
  rw [e, envelope_drop]
  simp [List.getD, List.getElem?_append, hk]

theorem envelope_getD_checksum (c : Config) {payload : List Byte} (h : payload.length = c.payloadSize) :
    (envelope c payload).getD (c.frameSize - 1) 0 = checksum c.checksum payload := by
  have e : (envelope c payload).getD (c.frameSize - 1) 0
      = ((envelope c payload).drop c.magicLen).getD c.payloadSize 0 := by
    simp only [List.getD, List.getElem?_drop]
    congr 2
  rw [e, envelope_drop]
  simp [List.getD, h]

/-- Parameter i of a frame has `PARAM_LEN` bytes, each the frame's at its offset (R117). -/
theorem paramAt_digit (c : Config) {f : List Byte} (hf : f.length = c.frameSize) {i k : Nat}
    (hi : i < c.paramCount) (hk : k < c.paramLen) :
    paramAt c f i / 256 ^ (if c.byteOrder = .little then k else c.paramLen - 1 - k) % 256
      = (f.getD (c.paramOffset i + k) 0).toNat := by
  have hend : c.paramLen * (i + 1) ≤ c.paramLen * c.paramCount := Nat.mul_le_mul_left _ hi
  rw [Nat.mul_add] at hend
  have hlen : ((f.drop (c.paramOffset i)).take c.paramLen).length = c.paramLen := by
    simp [hf, frameSize_eq, payloadSize_eq, Config.paramOffset]
    omega
  have e := fieldValue_digit c.byteOrder ((f.drop (c.paramOffset i)).take c.paramLen) (hlen.symm ▸ hk)
  rwa [getD_drop_take _ _ hk, hlen] at e

theorem paramAt_lt (c : Config) (f : List Byte) (i : Nat) : paramAt c f i < 256 ^ c.paramLen :=
  Nat.lt_of_lt_of_le (fieldValue_lt _ _) (Nat.pow_le_pow_right (by decide) (by simp))

/-- Deserialize on a frame built around a payload: the checks pass and the fields are read. -/
theorem deserialize_envelope (c : Config) {payload : List Byte} (h : payload.length = c.payloadSize) :
    deserialize c (envelope c payload) = .ok (decodeFields c (envelope c payload)) := by
  have hm := envelope_take c payload
  have hc := envelope_getD_checksum c h
  rw [deserialize, if_neg (by simp [hm]), payloadOf_envelope c h, if_neg (by rw [hc]; simp)]

/-- Everything Serialize can answer (R112, R113). -/
theorem serialize_cases (c : Config) (ptype cmd : Byte) (n : Nat) (p : List Nat) (d : List Byte) :
    (c.paramCount < n ∧ serialize c ptype cmd n p d = .error .invalidParameterCount) ∨
    (n ≤ c.paramCount ∧ serialize c ptype cmd n p d = .ok (envelope c (encodePacket c ptype cmd n p d))) := by
  by_cases h : c.paramCount < n
  · exact .inl ⟨h, by simp [serialize, tooManyParams, h]⟩
  · exact .inr ⟨by omega, by simp [serialize, tooManyParams, h]⟩

end Sys2Proof.Machine
end

