-- ==== Sys2Proof/Laws/Memory.lean ====
section
/-! SUPPORT. The laws of the frame buffer: read after write, and that every operation keeps the
canonical form and the bounds of `buf`. -/

namespace Sys2Proof.Machine

/-! ## Canonical form -/

theorem Memory.wfFrom_mono {lo hi : Nat} (h : lo ≤ hi) {m : Memory} (hm : Memory.wfFrom hi m = true) :
    Memory.wfFrom lo m = true := by
  cases m with
  | nil => rfl
  | cons cell rest =>
    simp only [Memory.wfFrom, Bool.and_eq_true, decide_eq_true_eq] at hm ⊢
    exact ⟨⟨by omega, hm.1.2⟩, hm.2⟩

/-- The first listed index is the lowest, so everything below it is unlisted. -/
theorem Memory.get_below {lo a : Nat} {m : Memory} (hm : Memory.wfFrom lo m = true) (h : a < lo) :
    m.get a = Memory.unlisted := by
  induction m generalizing lo with
  | nil => rfl
  | cons cell rest ih =>
    simp only [Memory.wfFrom, Bool.and_eq_true, decide_eq_true_eq] at hm
    have hne : a ≠ cell.1 := by omega
    simp only [Memory.get, if_neg hne]
    exact ih hm.2 (by omega)

theorem Memory.wfFrom_set {lo a : Nat} {m : Memory} (hm : Memory.wfFrom lo m = true) (h : lo ≤ a) (b : Byte) :
    Memory.wfFrom lo (m.set a b) = true := by
  induction m generalizing lo with
  | nil =>
    unfold Memory.set
    split
    · rfl
    · simp_all [Memory.wfFrom]
  | cons cell rest ih =>
    obtain ⟨x, v⟩ := cell
    have hm' := hm
    simp only [Memory.wfFrom, Bool.and_eq_true, decide_eq_true_eq] at hm
    unfold Memory.set
    split
    · split
      · exact hm'
      · simp only [Memory.wfFrom, Bool.and_eq_true, decide_eq_true_eq]
        exact ⟨⟨h, ‹_›⟩, ⟨by omega, hm.1.2⟩, hm.2⟩
    · split
      · subst a
        split
        · exact Memory.wfFrom_mono (by omega) hm.2
        · simp only [Memory.wfFrom, Bool.and_eq_true, decide_eq_true_eq]
          exact ⟨⟨h, ‹_›⟩, hm.2⟩
      · simp only [Memory.wfFrom, Bool.and_eq_true, decide_eq_true_eq]
        exact ⟨hm.1, ih hm.2 (by omega)⟩

/-- Replacing one byte keeps the canonical form. -/
theorem Memory.wf_set {m : Memory} (hm : m.wf = true) (a : Nat) (b : Byte) : (m.set a b).wf = true :=
  Memory.wfFrom_set hm (Nat.zero_le a) b

/-- A write keeps the canonical form. -/
theorem Memory.wf_write {m : Memory} (hm : m.wf = true) (a : Nat) (bs : List Byte) : (m.write a bs).wf = true := by
  induction bs generalizing m a with
  | nil => exact hm
  | cons b bs ih => exact ih (Memory.wf_set hm a b) (a + 1)

/-- The reset buffer is canonical and inside every bound. -/
theorem Memory.wf_nil : Memory.wf [] = true := rfl

@[simp] theorem Memory.within_nil (size : Nat) : Memory.within size [] = true := rfl

theorem Memory.within_iff {size : Nat} {m : Memory} : m.within size = true ↔ ∀ cell ∈ m, cell.1 < size := by
  simp only [Memory.within, List.all_eq_true, decide_eq_true_eq]

/-- An entry of the new buffer is the written one or an old one. -/
theorem Memory.mem_set {m : Memory} {a : Nat} {b : Byte} {cell : Host.Cell} (h : cell ∈ m.set a b) :
    cell = (a, b) ∨ cell ∈ m := by
  induction m with
  | nil =>
    unfold Memory.set at h
    split at h <;> simp_all
  | cons hd rest ih =>
    unfold Memory.set at h
    split at h
    · split at h
      · exact .inr h
      · exact List.mem_cons.mp h
    · split at h
      · split at h
        · exact .inr (List.mem_cons_of_mem _ h)
        · exact (List.mem_cons.mp h).imp_right (List.mem_cons_of_mem _)
      · rcases List.mem_cons.mp h with h | h
        · exact .inr (h ▸ List.mem_cons_self)
        · exact (ih h).imp_right (List.mem_cons_of_mem _)

theorem Memory.within_set {size a : Nat} {m : Memory} (hm : m.within size = true) (h : a < size) (b : Byte) :
    (m.set a b).within size = true := by
  rw [Memory.within_iff] at hm ⊢
  intro cell hc
  rcases Memory.mem_set hc with rfl | hc
  · exact h
  · exact hm cell hc

/-- A write inside the bounds keeps them. -/
theorem Memory.within_write {size a : Nat} {m : Memory} (hm : m.within size = true) (bs : List Byte)
    (h : a + bs.length ≤ size) : (m.write a bs).within size = true := by
  induction bs generalizing m a with
  | nil => exact hm
  | cons b bs ih =>
    simp only [List.length_cons] at h
    exact ih (Memory.within_set hm (by omega) b) (by omega)

/-! ## Read after write -/

@[simp] theorem Memory.get_nil (a : Nat) : Memory.get [] a = Memory.unlisted := rfl

theorem Memory.get_set_from {lo a c : Nat} {m : Memory} (hm : Memory.wfFrom lo m = true) (b : Byte) :
    (m.set a b).get c = if c = a then b else m.get c := by
  induction m generalizing lo with
  | nil =>
    unfold Memory.set
    split <;> simp_all [Memory.get]
  | cons cell rest ih =>
    obtain ⟨x, v⟩ := cell
    simp only [Memory.wfFrom, Bool.and_eq_true, decide_eq_true_eq] at hm
    have below : ∀ k, k ≤ x → Memory.get rest k = Memory.unlisted :=
      fun k hk => Memory.get_below hm.2 (by omega)
    have step := ih hm.2
    unfold Memory.set
    split
    · split
      · by_cases hc : c = a
        · have hx : c ≠ x := by omega
          simp only [Memory.get, if_neg hx, if_pos hc, ‹b = _›]
          exact below c (by omega)
        · simp [hc]
      · simp [Memory.get]
    · split
      · subst a
        split
        · by_cases hc : c = x
          · subst c; simp only [if_true, ‹b = _›]; exact below x (le_refl _)
          · simp [Memory.get, hc]
        · by_cases hc : c = x <;> simp [Memory.get, hc]
      · by_cases hx : c = x
        · have hca : c ≠ a := by omega
          simp [Memory.get, hx, show ¬ x = a by omega]
        · simp only [Memory.get, if_neg hx]
          exact step

/-- One byte changes, every other byte reads as before. -/
theorem Memory.get_set {m : Memory} (hm : m.wf = true) (a c : Nat) (b : Byte) :
    (m.set a b).get c = if c = a then b else m.get c :=
  Memory.get_set_from hm b

/-- What a write leaves: the written bytes at their indices, every other byte as before. -/
theorem Memory.get_write {m : Memory} (hm : m.wf = true) (a c : Nat) (bs : List Byte) :
    (m.write a bs).get c = if a ≤ c ∧ c < a + bs.length then bs.getD (c - a) 0 else m.get c := by
  induction bs generalizing m a with
  | nil => simp only [Memory.write, List.length_nil, Nat.add_zero]; rw [if_neg (by omega)]
  | cons b bs ih =>
    have hstep := ih (Memory.wf_set hm a b) (a + 1)
    simp only [Memory.write, hstep, Memory.get_set hm, List.length_cons]
    by_cases h1 : a + 1 ≤ c ∧ c < a + 1 + bs.length
    · have h2 : a ≤ c ∧ c < a + (bs.length + 1) := by omega
      rw [if_pos h1, if_pos h2, show c - a = (c - (a + 1)) + 1 by omega]
      simp
    · rw [if_neg h1]
      by_cases hc : c = a
      · subst c; simp
      · have h2 : ¬ (a ≤ c ∧ c < a + (bs.length + 1)) := by omega
        rw [if_neg hc, if_neg h2]

@[simp] theorem Memory.read_length (m : Memory) (a n : Nat) : (m.read a n).length = n := by
  simp [Memory.read]

/-- A read sees only its own range. -/
theorem Memory.read_congr {m m' : Memory} {a n : Nat} (h : ∀ k, a ≤ k → k < a + n → m.get k = m'.get k) :
    m.read a n = m'.read a n := by
  simp only [Memory.read]
  refine List.map_congr_left fun k hk => h _ (by omega) ?_
  have := List.mem_range.mp hk
  omega

end Sys2Proof.Machine
end

