-- ==== Sys2Proof/Laws/State.lean ====
section
/-! SUPPORT. What each update of State does to each field: one lemma a field, so that no later proof
unfolds a record update. -/

namespace Sys2Proof.Machine

/-! `setFa` -/

@[simp] theorem State.setFa_faState (t : State) (v : FaState) : (t.setFa v).faState = v := rfl
@[simp] theorem State.setFa_fill (t : State) (v : FaState) : (t.setFa v).fill = t.fill := rfl
@[simp] theorem State.setFa_buf (t : State) (v : FaState) : (t.setFa v).buf = t.buf := rfl
@[simp] theorem State.setFa_cancelQ (t : State) (v : FaState) : (t.setFa v).cancelQ = t.cancelQ := rfl
@[simp] theorem State.setFa_hsState (t : State) (v : FaState) : (t.setFa v).hsState = t.hsState := rfl
@[simp] theorem State.setFa_cfg (t : State) (v : FaState) : (t.setFa v).cfg = t.cfg := rfl
@[simp] theorem State.setFa_stimulus (t : State) (v : FaState) : (t.setFa v).stimulus = t.stimulus := rfl
@[simp] theorem State.setFa_cycle (t : State) (v : FaState) : (t.setFa v).cycle = t.cycle := rfl
@[simp] theorem State.setFa_out (t : State) (v : FaState) : (t.setFa v).out = t.out := rfl

/-! `setFill` -/

@[simp] theorem State.setFill_faState (t : State) (v : Nat) : (t.setFill v).faState = t.faState := rfl
@[simp] theorem State.setFill_fill (t : State) (v : Nat) : (t.setFill v).fill = v := rfl
@[simp] theorem State.setFill_buf (t : State) (v : Nat) : (t.setFill v).buf = t.buf := rfl
@[simp] theorem State.setFill_cancelQ (t : State) (v : Nat) : (t.setFill v).cancelQ = t.cancelQ := rfl
@[simp] theorem State.setFill_hsState (t : State) (v : Nat) : (t.setFill v).hsState = t.hsState := rfl
@[simp] theorem State.setFill_cfg (t : State) (v : Nat) : (t.setFill v).cfg = t.cfg := rfl
@[simp] theorem State.setFill_stimulus (t : State) (v : Nat) : (t.setFill v).stimulus = t.stimulus := rfl
@[simp] theorem State.setFill_cycle (t : State) (v : Nat) : (t.setFill v).cycle = t.cycle := rfl
@[simp] theorem State.setFill_out (t : State) (v : Nat) : (t.setFill v).out = t.out := rfl

/-! `setBuf` -/

@[simp] theorem State.setBuf_faState (t : State) (v : Memory) : (t.setBuf v).faState = t.faState := rfl
@[simp] theorem State.setBuf_fill (t : State) (v : Memory) : (t.setBuf v).fill = t.fill := rfl
@[simp] theorem State.setBuf_buf (t : State) (v : Memory) : (t.setBuf v).buf = v := rfl
@[simp] theorem State.setBuf_cancelQ (t : State) (v : Memory) : (t.setBuf v).cancelQ = t.cancelQ := rfl
@[simp] theorem State.setBuf_hsState (t : State) (v : Memory) : (t.setBuf v).hsState = t.hsState := rfl
@[simp] theorem State.setBuf_cfg (t : State) (v : Memory) : (t.setBuf v).cfg = t.cfg := rfl
@[simp] theorem State.setBuf_stimulus (t : State) (v : Memory) : (t.setBuf v).stimulus = t.stimulus := rfl
@[simp] theorem State.setBuf_cycle (t : State) (v : Memory) : (t.setBuf v).cycle = t.cycle := rfl
@[simp] theorem State.setBuf_out (t : State) (v : Memory) : (t.setBuf v).out = t.out := rfl

/-! `setCancel` -/

@[simp] theorem State.setCancel_faState (t : State) (v : Bool) : (t.setCancel v).faState = t.faState := rfl
@[simp] theorem State.setCancel_fill (t : State) (v : Bool) : (t.setCancel v).fill = t.fill := rfl
@[simp] theorem State.setCancel_buf (t : State) (v : Bool) : (t.setCancel v).buf = t.buf := rfl
@[simp] theorem State.setCancel_cancelQ (t : State) (v : Bool) : (t.setCancel v).cancelQ = v := rfl
@[simp] theorem State.setCancel_hsState (t : State) (v : Bool) : (t.setCancel v).hsState = t.hsState := rfl
@[simp] theorem State.setCancel_cfg (t : State) (v : Bool) : (t.setCancel v).cfg = t.cfg := rfl
@[simp] theorem State.setCancel_stimulus (t : State) (v : Bool) : (t.setCancel v).stimulus = t.stimulus := rfl
@[simp] theorem State.setCancel_cycle (t : State) (v : Bool) : (t.setCancel v).cycle = t.cycle := rfl
@[simp] theorem State.setCancel_out (t : State) (v : Bool) : (t.setCancel v).out = t.out := rfl

/-! `setHs` -/

@[simp] theorem State.setHs_faState (t : State) (v : HsState) : (t.setHs v).faState = t.faState := rfl
@[simp] theorem State.setHs_fill (t : State) (v : HsState) : (t.setHs v).fill = t.fill := rfl
@[simp] theorem State.setHs_buf (t : State) (v : HsState) : (t.setHs v).buf = t.buf := rfl
@[simp] theorem State.setHs_cancelQ (t : State) (v : HsState) : (t.setHs v).cancelQ = t.cancelQ := rfl
@[simp] theorem State.setHs_hsState (t : State) (v : HsState) : (t.setHs v).hsState = v := rfl
@[simp] theorem State.setHs_cfg (t : State) (v : HsState) : (t.setHs v).cfg = t.cfg := rfl
@[simp] theorem State.setHs_stimulus (t : State) (v : HsState) : (t.setHs v).stimulus = t.stimulus := rfl
@[simp] theorem State.setHs_cycle (t : State) (v : HsState) : (t.setHs v).cycle = t.cycle := rfl
@[simp] theorem State.setHs_out (t : State) (v : HsState) : (t.setHs v).out = t.out := rfl

/-! `setReq` -/

@[simp] theorem State.setReq_faState (t : State) (v : Nat) : (t.setReq v).faState = t.faState := rfl
@[simp] theorem State.setReq_fill (t : State) (v : Nat) : (t.setReq v).fill = t.fill := rfl
@[simp] theorem State.setReq_buf (t : State) (v : Nat) : (t.setReq v).buf = t.buf := rfl
@[simp] theorem State.setReq_cancelQ (t : State) (v : Nat) : (t.setReq v).cancelQ = t.cancelQ := rfl
@[simp] theorem State.setReq_hsState (t : State) (v : Nat) : (t.setReq v).hsState = t.hsState := rfl
@[simp] theorem State.setReq_cfg (t : State) (v : Nat) : (t.setReq v).cfg = t.cfg := rfl
@[simp] theorem State.setReq_stimulus (t : State) (v : Nat) : (t.setReq v).stimulus = t.stimulus := rfl
@[simp] theorem State.setReq_cycle (t : State) (v : Nat) : (t.setReq v).cycle = t.cycle := rfl
@[simp] theorem State.setReq_out_ack (t : State) (v : Nat) : (t.setReq v).out.ack = t.out.ack := rfl
@[simp] theorem State.setReq_out_tx (t : State) (v : Nat) : (t.setReq v).out.tx = t.out.tx := rfl
@[simp] theorem State.setReq_out_cpl (t : State) (v : Nat) : (t.setReq v).out.cpl = t.out.cpl := rfl
@[simp] theorem State.setReq_out_rxReqMax (t : State) (v : Nat) : (t.setReq v).out.rxReqMax = v := rfl
@[simp] theorem State.setReq_out_stBusy (t : State) (v : Nat) : (t.setReq v).out.stBusy = t.out.stBusy := rfl
@[simp] theorem State.setReq_out_stHs (t : State) (v : Nat) : (t.setReq v).out.stHs = t.out.stHs := rfl
@[simp] theorem State.setReq_out_stCancelled (t : State) (v : Nat) : (t.setReq v).out.stCancelled = t.out.stCancelled := rfl
@[simp] theorem State.setReq_out_stFill (t : State) (v : Nat) : (t.setReq v).out.stFill = t.out.stFill := rfl

/-! `setTx` -/

@[simp] theorem State.setTx_faState (t : State) (v : List Byte) : (t.setTx v).faState = t.faState := rfl
@[simp] theorem State.setTx_fill (t : State) (v : List Byte) : (t.setTx v).fill = t.fill := rfl
@[simp] theorem State.setTx_buf (t : State) (v : List Byte) : (t.setTx v).buf = t.buf := rfl
@[simp] theorem State.setTx_cancelQ (t : State) (v : List Byte) : (t.setTx v).cancelQ = t.cancelQ := rfl
@[simp] theorem State.setTx_hsState (t : State) (v : List Byte) : (t.setTx v).hsState = t.hsState := rfl
@[simp] theorem State.setTx_cfg (t : State) (v : List Byte) : (t.setTx v).cfg = t.cfg := rfl
@[simp] theorem State.setTx_stimulus (t : State) (v : List Byte) : (t.setTx v).stimulus = t.stimulus := rfl
@[simp] theorem State.setTx_cycle (t : State) (v : List Byte) : (t.setTx v).cycle = t.cycle := rfl
@[simp] theorem State.setTx_out_ack (t : State) (v : List Byte) : (t.setTx v).out.ack = t.out.ack := rfl
@[simp] theorem State.setTx_out_tx (t : State) (v : List Byte) : (t.setTx v).out.tx = some v := rfl
@[simp] theorem State.setTx_out_cpl (t : State) (v : List Byte) : (t.setTx v).out.cpl = t.out.cpl := rfl
@[simp] theorem State.setTx_out_rxReqMax (t : State) (v : List Byte) : (t.setTx v).out.rxReqMax = t.out.rxReqMax := rfl
@[simp] theorem State.setTx_out_stBusy (t : State) (v : List Byte) : (t.setTx v).out.stBusy = t.out.stBusy := rfl
@[simp] theorem State.setTx_out_stHs (t : State) (v : List Byte) : (t.setTx v).out.stHs = t.out.stHs := rfl
@[simp] theorem State.setTx_out_stCancelled (t : State) (v : List Byte) : (t.setTx v).out.stCancelled = t.out.stCancelled := rfl
@[simp] theorem State.setTx_out_stFill (t : State) (v : List Byte) : (t.setTx v).out.stFill = t.out.stFill := rfl

/-! `setCpl` -/

@[simp] theorem State.setCpl_faState (t : State) (v : Completion) : (t.setCpl v).faState = t.faState := rfl
@[simp] theorem State.setCpl_fill (t : State) (v : Completion) : (t.setCpl v).fill = t.fill := rfl
@[simp] theorem State.setCpl_buf (t : State) (v : Completion) : (t.setCpl v).buf = t.buf := rfl
@[simp] theorem State.setCpl_cancelQ (t : State) (v : Completion) : (t.setCpl v).cancelQ = t.cancelQ := rfl
@[simp] theorem State.setCpl_hsState (t : State) (v : Completion) : (t.setCpl v).hsState = t.hsState := rfl
@[simp] theorem State.setCpl_cfg (t : State) (v : Completion) : (t.setCpl v).cfg = t.cfg := rfl
@[simp] theorem State.setCpl_stimulus (t : State) (v : Completion) : (t.setCpl v).stimulus = t.stimulus := rfl
@[simp] theorem State.setCpl_cycle (t : State) (v : Completion) : (t.setCpl v).cycle = t.cycle := rfl
@[simp] theorem State.setCpl_out_ack (t : State) (v : Completion) : (t.setCpl v).out.ack = t.out.ack := rfl
@[simp] theorem State.setCpl_out_tx (t : State) (v : Completion) : (t.setCpl v).out.tx = t.out.tx := rfl
@[simp] theorem State.setCpl_out_cpl (t : State) (v : Completion) : (t.setCpl v).out.cpl = some v := rfl
@[simp] theorem State.setCpl_out_rxReqMax (t : State) (v : Completion) : (t.setCpl v).out.rxReqMax = t.out.rxReqMax := rfl
@[simp] theorem State.setCpl_out_stBusy (t : State) (v : Completion) : (t.setCpl v).out.stBusy = t.out.stBusy := rfl
@[simp] theorem State.setCpl_out_stHs (t : State) (v : Completion) : (t.setCpl v).out.stHs = t.out.stHs := rfl
@[simp] theorem State.setCpl_out_stCancelled (t : State) (v : Completion) : (t.setCpl v).out.stCancelled = t.out.stCancelled := rfl
@[simp] theorem State.setCpl_out_stFill (t : State) (v : Completion) : (t.setCpl v).out.stFill = t.out.stFill := rfl

/-! `setAck` -/

@[simp] theorem State.setAck_faState (t : State) (v : AckCode) : (t.setAck v).faState = t.faState := rfl
@[simp] theorem State.setAck_fill (t : State) (v : AckCode) : (t.setAck v).fill = t.fill := rfl
@[simp] theorem State.setAck_buf (t : State) (v : AckCode) : (t.setAck v).buf = t.buf := rfl
@[simp] theorem State.setAck_cancelQ (t : State) (v : AckCode) : (t.setAck v).cancelQ = t.cancelQ := rfl
@[simp] theorem State.setAck_hsState (t : State) (v : AckCode) : (t.setAck v).hsState = t.hsState := rfl
@[simp] theorem State.setAck_cfg (t : State) (v : AckCode) : (t.setAck v).cfg = t.cfg := rfl
@[simp] theorem State.setAck_stimulus (t : State) (v : AckCode) : (t.setAck v).stimulus = t.stimulus := rfl
@[simp] theorem State.setAck_cycle (t : State) (v : AckCode) : (t.setAck v).cycle = t.cycle := rfl
@[simp] theorem State.setAck_out_ack (t : State) (v : AckCode) : (t.setAck v).out.ack = some v := rfl
@[simp] theorem State.setAck_out_tx (t : State) (v : AckCode) : (t.setAck v).out.tx = t.out.tx := rfl
@[simp] theorem State.setAck_out_cpl (t : State) (v : AckCode) : (t.setAck v).out.cpl = t.out.cpl := rfl
@[simp] theorem State.setAck_out_rxReqMax (t : State) (v : AckCode) : (t.setAck v).out.rxReqMax = t.out.rxReqMax := rfl
@[simp] theorem State.setAck_out_stBusy (t : State) (v : AckCode) : (t.setAck v).out.stBusy = t.out.stBusy := rfl
@[simp] theorem State.setAck_out_stHs (t : State) (v : AckCode) : (t.setAck v).out.stHs = t.out.stHs := rfl
@[simp] theorem State.setAck_out_stCancelled (t : State) (v : AckCode) : (t.setAck v).out.stCancelled = t.out.stCancelled := rfl
@[simp] theorem State.setAck_out_stFill (t : State) (v : AckCode) : (t.setAck v).out.stFill = t.out.stFill := rfl

/-! `raise` is `setAck` with an error code (R10). -/

@[simp] theorem State.raise_eq (t : State) (e : AckCode) : t.raise e = t.setAck e := rfl

/-! `beginCycle` -/

@[simp] theorem State.beginCycle_faState (s : State) : s.beginCycle.faState = s.faState := rfl
@[simp] theorem State.beginCycle_fill (s : State) : s.beginCycle.fill = s.fill := rfl
@[simp] theorem State.beginCycle_buf (s : State) : s.beginCycle.buf = s.buf := rfl
@[simp] theorem State.beginCycle_cancelQ (s : State) : s.beginCycle.cancelQ = s.cancelQ := rfl
@[simp] theorem State.beginCycle_hsState (s : State) : s.beginCycle.hsState = s.hsState := rfl
@[simp] theorem State.beginCycle_cfg (s : State) : s.beginCycle.cfg = s.cfg := rfl
@[simp] theorem State.beginCycle_stimulus (s : State) : s.beginCycle.stimulus = s.stimulus.tail := rfl
@[simp] theorem State.beginCycle_cycle (s : State) : s.beginCycle.cycle = s.cycle + 1 := rfl
@[simp] theorem State.beginCycle_out_ack (s : State) : s.beginCycle.out.ack = none := rfl
@[simp] theorem State.beginCycle_out_tx (s : State) : s.beginCycle.out.tx = none := rfl
@[simp] theorem State.beginCycle_out_cpl (s : State) : s.beginCycle.out.cpl = none := rfl
@[simp] theorem State.beginCycle_out_rxReqMax (s : State) : s.beginCycle.out.rxReqMax = 0 := rfl
@[simp] theorem State.beginCycle_out_stBusy (s : State) : s.beginCycle.out.stBusy = decide (s.faState = .active) := rfl
@[simp] theorem State.beginCycle_out_stHs (s : State) : s.beginCycle.out.stHs = s.hsState := rfl
@[simp] theorem State.beginCycle_out_stCancelled (s : State) : s.beginCycle.out.stCancelled = s.cancelQ := rfl
@[simp] theorem State.beginCycle_out_stFill (s : State) : s.beginCycle.out.stFill = s.fill := rfl

/-! `openCycle` -/

@[simp] theorem State.openCycle_faState (s : State) (p : Bool) : (s.openCycle p).faState = s.faState := rfl
@[simp] theorem State.openCycle_fill (s : State) (p : Bool) : (s.openCycle p).fill = s.fill := rfl
@[simp] theorem State.openCycle_buf (s : State) (p : Bool) : (s.openCycle p).buf = s.buf := rfl
@[simp] theorem State.openCycle_cancelQ (s : State) (p : Bool) : (s.openCycle p).cancelQ = s.cancelEff p := rfl
@[simp] theorem State.openCycle_hsState (s : State) (p : Bool) : (s.openCycle p).hsState = s.hsState := rfl
@[simp] theorem State.openCycle_cfg (s : State) (p : Bool) : (s.openCycle p).cfg = s.cfg := rfl
@[simp] theorem State.openCycle_stimulus (s : State) (p : Bool) : (s.openCycle p).stimulus = s.stimulus.tail := rfl
@[simp] theorem State.openCycle_cycle (s : State) (p : Bool) : (s.openCycle p).cycle = s.cycle + 1 := rfl
@[simp] theorem State.openCycle_out_ack (s : State) (p : Bool) : (s.openCycle p).out.ack = none := rfl
@[simp] theorem State.openCycle_out_tx (s : State) (p : Bool) : (s.openCycle p).out.tx = none := rfl
@[simp] theorem State.openCycle_out_cpl (s : State) (p : Bool) : (s.openCycle p).out.cpl = none := rfl
@[simp] theorem State.openCycle_out_rxReqMax (s : State) (p : Bool) : (s.openCycle p).out.rxReqMax = s.request p := rfl
@[simp] theorem State.openCycle_out_stBusy (s : State) (p : Bool) : (s.openCycle p).out.stBusy = decide (s.faState = .active) := rfl
@[simp] theorem State.openCycle_out_stHs (s : State) (p : Bool) : (s.openCycle p).out.stHs = s.hsState := rfl
@[simp] theorem State.openCycle_out_stCancelled (s : State) (p : Bool) : (s.openCycle p).out.stCancelled = s.cancelQ := rfl
@[simp] theorem State.openCycle_out_stFill (s : State) (p : Bool) : (s.openCycle p).out.stFill = s.fill := rfl

/-! `startReceive` and `resetBlock` -/

@[simp] theorem startReceive_faState (t : State) : (startReceive t).faState = .active := rfl
@[simp] theorem startReceive_fill (t : State) : (startReceive t).fill = 0 := rfl
@[simp] theorem startReceive_buf (t : State) : (startReceive t).buf = t.buf := rfl
@[simp] theorem startReceive_cancelQ (t : State) : (startReceive t).cancelQ = t.cancelQ := rfl
@[simp] theorem startReceive_hsState (t : State) : (startReceive t).hsState = t.hsState := rfl
@[simp] theorem startReceive_cfg (t : State) : (startReceive t).cfg = t.cfg := rfl
@[simp] theorem startReceive_stimulus (t : State) : (startReceive t).stimulus = t.stimulus := rfl
@[simp] theorem startReceive_cycle (t : State) : (startReceive t).cycle = t.cycle := rfl
@[simp] theorem startReceive_out (t : State) : (startReceive t).out = t.out := rfl
@[simp] theorem State.resetBlock_faState (t : State) : t.resetBlock.faState = .idle := rfl
@[simp] theorem State.resetBlock_fill (t : State) : t.resetBlock.fill = 0 := rfl
@[simp] theorem State.resetBlock_buf (t : State) : t.resetBlock.buf = [] := rfl
@[simp] theorem State.resetBlock_cancelQ (t : State) : t.resetBlock.cancelQ = false := rfl
@[simp] theorem State.resetBlock_hsState (t : State) : t.resetBlock.hsState = .idle := rfl
@[simp] theorem State.resetBlock_cfg (t : State) : t.resetBlock.cfg = t.cfg := rfl
@[simp] theorem State.resetBlock_stimulus (t : State) : t.resetBlock.stimulus = t.stimulus := rfl
@[simp] theorem State.resetBlock_cycle (t : State) : t.resetBlock.cycle = t.cycle := rfl
@[simp] theorem State.resetBlock_out (t : State) : t.resetBlock.out = t.out := rfl

/-- Two states agree when each field does. -/
theorem State.ext_fields {s t : State} (h1 : s.faState = t.faState) (h2 : s.fill = t.fill) (h3 : s.buf = t.buf)
    (h4 : s.cancelQ = t.cancelQ) (h5 : s.hsState = t.hsState) (h6 : s.cfg = t.cfg) (h7 : s.stimulus = t.stimulus)
    (h8 : s.cycle = t.cycle) (h9 : s.out = t.out) : s = t := by
  cases s; cases t; simp_all

end Sys2Proof.Machine
end

