-- ==== Sys2Proof/Laws/Cycle.lean ====
section
/-! SUPPORT. What one cycle can do, said once: the inversion of each shared operation of Machine/Cycle.lean,
and `exec` as one cycle around an op phase. -/

namespace Sys2Proof.Machine

/-! ## The combinational values -/

@[simp] theorem State.busy_eq_true {s : State} : s.busy = true ↔ s.faState = .active := by simp [State.busy]

@[simp] theorem State.busy_eq_false {s : State} : s.busy = false ↔ s.faState = .idle := by
  cases h : s.faState <;> simp [State.busy, h]

@[simp] theorem received_length (inp : CycleIn) : (received inp).length = inp.rxCount := by simp [received]

@[simp] theorem State.chunk_length (s : State) : s.chunk.length = s.input.rxCount := by simp [State.chunk]

@[simp] theorem State.cancelPin_cancel (s : State) : s.cancelPin .cancel = true := rfl

@[simp] theorem State.cancelPin_nop (s : State) : s.cancelPin .nop = s.input.cancelIn := rfl

@[simp] theorem State.cancelPin_recv (s : State) : s.cancelPin .recv = s.input.cancelIn := rfl

@[simp] theorem State.cancelPin_hshake (s : State) : s.cancelPin .hshake = s.input.cancelIn := rfl

@[simp] theorem State.cancelPin_reserved (s : State) (code : BitVec 2) :
    s.cancelPin (.reserved code) = s.input.cancelIn := rfl

@[simp] theorem State.cancelPin_send (s : State) (ptype cmd nparams : Byte) (params : List Nat) (data : List Byte) :
    s.cancelPin (.send ptype cmd nparams params data) = s.input.cancelIn := rfl

/-- `rx_req_max` written out (R93, R208). -/
theorem State.request_eq (s : State) (cancelIn : Bool) :
    s.request cancelIn = if s.faState = .active ∧ s.cancelQ = false ∧ cancelIn = false
      then min s.cfg.rxLanes (s.cfg.frameSize - s.fill) else 0 := by
  cases h : s.faState <;> cases hq : s.cancelQ <;> cases cancelIn <;>
    simp [State.request, State.busy, State.cancelEff, h, hq]

theorem State.overrun_eq_false {s : State} {cancelIn : Bool} :
    s.overrun cancelIn = false ↔ s.input.rxCount ≤ s.request cancelIn := by
  simp [State.overrun]

/-! ## How a receive ends -/

/-- `finish` touches only `hs_state` and the completion channel, and says which. -/
theorem finish_cases (s : State) (r : RxResult) (t : State) :
    (s.hsState ≠ .awaiting ∧ finish s r t = t.setCpl (.recvDone r)) ∨
    (s.hsState = .awaiting ∧ ∃ pkt, r = .ok pkt ∧ pkt.ptype = s.cfg.ptResponse ∧ pkt.cmd = s.cfg.respOk ∧
      finish s r t = (t.setHs .established).setCpl (.hsDone .ok true .none (some pkt.ptype))) ∨
    (s.hsState = .awaiting ∧ ∃ reason observed,
      finish s r t = (t.setHs .failed).setCpl (.hsDone r.verdict false reason observed)) := by
  by_cases hw : s.hsState = .awaiting
  · simp only [finish, if_pos hw]
    cases r with
    | ok pkt =>
      by_cases hok : pkt.ptype = s.cfg.ptResponse ∧ pkt.cmd = s.cfg.respOk
      · exact .inr (.inl ⟨hw, pkt, rfl, hok.1, hok.2, by simp only [hsFinish, if_pos hok]⟩)
      · by_cases ht : pkt.ptype ≠ s.cfg.ptResponse
        · exact .inr (.inr ⟨hw, _, _, by simp only [hsFinish, if_neg hok, if_pos ht]; rfl⟩)
        · exact .inr (.inr ⟨hw, _, _, by simp only [hsFinish, if_neg hok, if_neg ht]; rfl⟩)
    | badPacket => exact .inr (.inr ⟨hw, _, _, rfl⟩)
    | badChecksum => exact .inr (.inr ⟨hw, _, _, rfl⟩)
    | cancelled => exact .inr (.inr ⟨hw, _, _, rfl⟩)
  · exact .inl ⟨hw, by simp only [finish, if_neg hw]⟩

/-- Everything `endReceive` leaves alone, and the idle accumulator it leaves. -/
theorem endReceive_fields (s : State) (r : RxResult) (t : State) :
    (endReceive s r t).faState = .idle ∧ (endReceive s r t).fill = 0 ∧ (endReceive s r t).buf = t.buf ∧
      (endReceive s r t).cancelQ = t.cancelQ ∧ (endReceive s r t).cfg = t.cfg ∧
      (endReceive s r t).stimulus = t.stimulus ∧ (endReceive s r t).cycle = t.cycle := by
  obtain ⟨-, h⟩ | ⟨-, _, -, -, -, h⟩ | ⟨-, _, _, h⟩ := finish_cases s r ((t.setFa .idle).setFill 0) <;>
    simp [endReceive, h]

/-- The output channels that `endReceive` leaves alone. -/
theorem endReceive_outputs (s : State) (r : RxResult) (t : State) :
    (endReceive s r t).out.ack = t.out.ack ∧ (endReceive s r t).out.tx = t.out.tx ∧
      (endReceive s r t).out.rxReqMax = t.out.rxReqMax ∧ (endReceive s r t).out.stBusy = t.out.stBusy ∧
      (endReceive s r t).out.stHs = t.out.stHs ∧ (endReceive s r t).out.stCancelled = t.out.stCancelled ∧
      (endReceive s r t).out.stFill = t.out.stFill := by
  obtain ⟨-, h⟩ | ⟨-, _, -, -, -, h⟩ | ⟨-, _, _, h⟩ := finish_cases s r ((t.setFa .idle).setFill 0) <;>
    simp [endReceive, h]

/-! ## The poll -/

/-- Phase P leaves an idle block alone. -/
theorem pollPhase_idle {s : State} (hf : s.faState = .idle) (cancelIn : Bool) (t : State) :
    pollPhase s cancelIn t = .next t := by
  simp [pollPhase, State.busy, hf]

/-- Phase P of a cancelled receive. -/
theorem pollPhase_cancelled {s : State} (hf : s.faState = .active) {cancelIn : Bool}
    (hc : s.cancelEff cancelIn = true) (t : State) :
    pollPhase s cancelIn t = .next (endReceive s .cancelled t) := by
  simp [pollPhase, State.busy, hf, hc]

/-- Phase P of a poll that reads. -/
theorem pollPhase_reads {s : State} (hf : s.faState = .active) {cancelIn : Bool}
    (hc : s.cancelEff cancelIn = false) (hfill : s.fill < s.cfg.frameSize) (t : State) :
    pollPhase s cancelIn t = .next (append s s.chunk t) := by
  simp [pollPhase, State.busy, hf, hc, Nat.not_le.mpr hfill]

/-- Phase P of a poll whose cursor has left the buffer. -/
theorem pollPhase_brokenCursor {s : State} (hf : s.faState = .active) {cancelIn : Bool}
    (hc : s.cancelEff cancelIn = false) (hfill : s.cfg.frameSize ≤ s.fill) (t : State) :
    pollPhase s cancelIn t = .fault .cursorOutOfRange := by
  simp [pollPhase, State.busy, hf, hc, hfill]

/-- Phase P refuses nothing: the transport's contract is the cycle's check (R170). -/
theorem pollPhase_ne_refused (s : State) (cancelIn : Bool) (t : State) (r : Refusal) :
    pollPhase s cancelIn t ≠ .refused r := by
  unfold pollPhase
  repeat' split
  all_goals simp

/-- Everything Phase P can do when it answers a next state. -/
theorem pollPhase_cases {s : State} {cancelIn : Bool} {t t' : State} (h : pollPhase s cancelIn t = .next t') :
    (s.faState = .idle ∧ t' = t) ∨
    (s.faState = .active ∧ s.cancelEff cancelIn = true ∧ t' = endReceive s .cancelled t) ∨
    (s.faState = .active ∧ s.cancelEff cancelIn = false ∧ s.fill < s.cfg.frameSize ∧
      t' = append s s.chunk t) := by
  cases hf : s.faState with
  | idle =>
    rw [pollPhase_idle hf] at h
    cases h
    exact .inl ⟨rfl, rfl⟩
  | active =>
    cases hc : s.cancelEff cancelIn with
    | true =>
      rw [pollPhase_cancelled hf hc] at h
      cases h
      exact .inr (.inl ⟨rfl, rfl, rfl⟩)
    | false =>
      by_cases hfill : s.cfg.frameSize ≤ s.fill
      · rw [pollPhase_brokenCursor hf hc hfill] at h
        cases h
      · rw [pollPhase_reads hf hc (by omega)] at h
        cases h
        exact .inr (.inr ⟨rfl, rfl, by omega, rfl⟩)

/-- The append that fills the frame (R94). -/
theorem append_complete {s : State} {chunk : List Byte} (h : s.fill + chunk.length = s.cfg.frameSize) (t : State) :
    append s chunk t = endReceive s (deserialize s.cfg (s.buf.read 0 s.fill ++ chunk))
      (t.setBuf (s.buf.write s.fill chunk)) := by
  simp only [append, if_pos h]

/-- The append that does not fill the frame (R93). -/
theorem append_partial {s : State} {chunk : List Byte} (h : s.fill + chunk.length ≠ s.cfg.frameSize) (t : State) :
    append s chunk t = (t.setBuf (s.buf.write s.fill chunk)).setFill (s.fill + chunk.length) := by
  simp only [append, if_neg h]

/-- The one store of the block (R175): whatever the append does, this is the buffer it leaves. -/
theorem append_buf (s : State) (chunk : List Byte) (t : State) :
    (append s chunk t).buf = s.buf.write s.fill chunk := by
  by_cases h : s.fill + chunk.length = s.cfg.frameSize
  · rw [append_complete h, (endReceive_fields _ _ _).2.2.1]; rfl
  · rw [append_partial h]; rfl

/-- What the append leaves alone. -/
theorem append_frame (s : State) (chunk : List Byte) (t : State) :
    (append s chunk t).cancelQ = t.cancelQ ∧ (append s chunk t).cfg = t.cfg ∧
      (append s chunk t).stimulus = t.stimulus ∧ (append s chunk t).cycle = t.cycle := by
  by_cases h : s.fill + chunk.length = s.cfg.frameSize
  · have e := endReceive_fields s (deserialize s.cfg (s.buf.read 0 s.fill ++ chunk))
      (t.setBuf (s.buf.write s.fill chunk))
    rw [append_complete h]
    exact ⟨e.2.2.2.1, e.2.2.2.2.1, e.2.2.2.2.2.1, e.2.2.2.2.2.2⟩
  · rw [append_partial h]; exact ⟨rfl, rfl, rfl, rfl⟩

/-- The output channels the append leaves alone. -/
theorem append_outputs (s : State) (chunk : List Byte) (t : State) :
    (append s chunk t).out.ack = t.out.ack ∧ (append s chunk t).out.tx = t.out.tx ∧
      (append s chunk t).out.rxReqMax = t.out.rxReqMax ∧ (append s chunk t).out.stBusy = t.out.stBusy ∧
      (append s chunk t).out.stHs = t.out.stHs ∧ (append s chunk t).out.stCancelled = t.out.stCancelled ∧
      (append s chunk t).out.stFill = t.out.stFill := by
  by_cases h : s.fill + chunk.length = s.cfg.frameSize
  · rw [append_complete h]; exact endReceive_outputs _ _ _
  · rw [append_partial h]; exact ⟨rfl, rfl, rfl, rfl, rfl, rfl, rfl⟩

/-! ## The cycle -/

/-- A cycle that keeps the transport's contract runs Phase P and then Phase O. -/
theorem runCycle_of_poll {cancelIn : Bool} {phaseO : State → State → State} {s t : State}
    (hr : s.input.rxCount ≤ s.request cancelIn) (hp : pollPhase s cancelIn (s.openCycle cancelIn) = .next t) :
    runCycle cancelIn phaseO s = .next (phaseO s t) := by
  simp [runCycle, State.overrun_eq_false.mpr hr, hp]

/-- Everything a cycle with `rst = 0` can do when it answers a next state. -/
theorem runCycle_cases {cancelIn : Bool} {phaseO : State → State → State} {s t : State}
    (h : runCycle cancelIn phaseO s = .next t) :
    s.input.rxCount ≤ s.request cancelIn ∧
      ∃ t0, pollPhase s cancelIn (s.openCycle cancelIn) = .next t0 ∧ t = phaseO s t0 := by
  unfold runCycle at h
  split at h
  · cases h
  · rename_i ho
    refine ⟨State.overrun_eq_false.mp (by simpa using ho), ?_⟩
    split at h <;> cases h
    exact ⟨_, ‹_›, rfl⟩

/-- Everything a reset cycle can do when it answers a next state. -/
theorem resetCycle_cases {s t : State} (h : resetCycle s = .next t) :
    s.input.rxCount = 0 ∧ t = s.beginCycle.resetBlock := by
  unfold resetCycle at h
  split at h <;> cases h
  exact ⟨by omega, rfl⟩

/-! ## `exec` as one cycle around an op phase -/

/-- Phase O of each operation (R160). -/
def opPhase : Instr → State → State → State
  | .nop => skipBody
  | .recv => unlessBusy recvBody
  | .send ptype cmd nparams params data => unlessBusy (sendBody ptype cmd nparams params data)
  | .hshake => unlessBusy hshakeBody
  | .reserved code => reservedBody code
  | .rst => skipBody
  | .cancel => skipBody

/-- Every operation but RST is one cycle around its op phase. -/
theorem exec_eq_runCycle {i : Instr} (hi : i ≠ .rst) (s : State) :
    exec i s = runCycle (s.cancelPin i) (opPhase i) s := by
  cases i <;> first | rfl | exact absurd rfl hi

theorem exec_rst (s : State) : exec .rst s = resetCycle s := rfl

/-- Everything an operation but RST can do when it answers a next state. -/
theorem exec_cases {i : Instr} (hi : i ≠ .rst) {s t : State} (h : exec i s = .next t) :
    s.input.rxCount ≤ s.request (s.cancelPin i) ∧
      ∃ t0, pollPhase s (s.cancelPin i) (s.openCycle (s.cancelPin i)) = .next t0 ∧ t = opPhase i s t0 :=
  runCycle_cases (exec_eq_runCycle hi s ▸ h)

/-- An operation but RST, where its poll is known. -/
theorem exec_of_poll {i : Instr} (hi : i ≠ .rst) {s t : State}
    (hr : s.input.rxCount ≤ s.request (s.cancelPin i))
    (hp : pollPhase s (s.cancelPin i) (s.openCycle (s.cancelPin i)) = .next t) :
    exec i s = .next (opPhase i s t) :=
  (exec_eq_runCycle hi s).trans (runCycle_of_poll hr hp)

/-- The op phase writes neither the buffer nor the flag, and drives neither the completion channel, the
request nor a status output (R168). -/
theorem opPhase_frame (i : Instr) (s t : State) :
    (opPhase i s t).buf = t.buf ∧ (opPhase i s t).cancelQ = t.cancelQ ∧ (opPhase i s t).cfg = t.cfg ∧
      (opPhase i s t).stimulus = t.stimulus ∧ (opPhase i s t).cycle = t.cycle ∧
      (opPhase i s t).out.cpl = t.out.cpl ∧ (opPhase i s t).out.rxReqMax = t.out.rxReqMax ∧
      (opPhase i s t).out.stBusy = t.out.stBusy ∧ (opPhase i s t).out.stHs = t.out.stHs ∧
      (opPhase i s t).out.stCancelled = t.out.stCancelled ∧ (opPhase i s t).out.stFill = t.out.stFill := by
  cases i with
  | nop => simp [opPhase, skipBody]
  | rst => simp [opPhase, skipBody]
  | cancel => simp [opPhase, skipBody]
  | reserved code => simp [opPhase, reservedBody]
  | recv => simp only [opPhase, unlessBusy]; split <;> simp [recvBody]
  | hshake => simp only [opPhase, unlessBusy, hshakeBody]; split <;> (try split) <;> simp
  | send ptype cmd nparams params data =>
    simp only [opPhase, unlessBusy, sendBody]; split <;> (try split) <;> simp

/-- While busy the op phase writes nothing but an ack (R167, R168). -/
theorem opPhase_busy {s : State} (hf : s.faState = .active) (i : Instr) (t : State) :
    opPhase i s t = t ∨ ∃ e, (e = .errBusy ∨ e = .errIllegal) ∧ opPhase i s t = t.setAck e := by
  have hb : s.busy = true := State.busy_eq_true.mpr hf
  cases i with
  | nop => exact .inl rfl
  | rst => exact .inl rfl
  | cancel => exact .inl rfl
  | reserved code => exact .inr ⟨_, .inr rfl, rfl⟩
  | recv => exact .inr ⟨_, .inl rfl, by simp [opPhase, unlessBusy, hb]⟩
  | hshake => exact .inr ⟨_, .inl rfl, by simp [opPhase, unlessBusy, hb]⟩
  | send _ _ _ _ _ => exact .inr ⟨_, .inl rfl, by simp [opPhase, unlessBusy, hb]⟩

/-- While busy, the op phase changes at most the ack channel. -/
theorem opPhase_busy_ack {s : State} (hf : s.faState = .active) (i : Instr) (t : State) :
    ∃ a, opPhase i s t = { t with out := { t.out with ack := a } } ∧
      (a = t.out.ack ∨ a = some .errBusy ∨ a = some .errIllegal) := by
  rcases opPhase_busy hf i t with h | ⟨e, he, h⟩
  · exact ⟨t.out.ack, h, .inl rfl⟩
  · refine ⟨some e, h, ?_⟩
    rcases he with rfl | rfl <;> simp

/-- Only RECV and HSHAKE move the accumulator or the session of an idle block (R168). -/
theorem opPhase_idle_frame {s : State} (hf : s.faState = .idle) {i : Instr} (h1 : i ≠ .recv) (h2 : i ≠ .hshake)
    (t : State) : (opPhase i s t).faState = t.faState ∧ (opPhase i s t).fill = t.fill ∧
      (opPhase i s t).hsState = t.hsState := by
  have hb : s.busy = false := State.busy_eq_false.mpr hf
  cases i with
  | recv => exact absurd rfl h1
  | hshake => exact absurd rfl h2
  | send _ _ _ _ _ => simp only [opPhase, unlessBusy, hb, sendBody]; simp; split <;> simp
  | _ => exact ⟨rfl, rfl, rfl⟩

/-- An idle cycle with no byte delivered completes, with its op phase alone. -/
theorem exec_idle {i : Instr} (hi : i ≠ .rst) {s : State} (hf : s.faState = .idle) (h0 : s.input.rxCount = 0) :
    exec i s = .next (opPhase i s (s.openCycle (s.cancelPin i))) :=
  exec_of_poll hi (by omega) (pollPhase_idle hf _ _)

/-- Everything an idle cycle with `rst = 0` can do when it answers a next state. -/
theorem exec_idle_cases {i : Instr} (hi : i ≠ .rst) {s t : State} (hf : s.faState = .idle)
    (h : exec i s = .next t) : s.input.rxCount = 0 ∧ t = opPhase i s (s.openCycle (s.cancelPin i)) := by
  obtain ⟨hr, t0, hp, rfl⟩ := exec_cases hi h
  rw [pollPhase_idle hf] at hp
  cases hp
  rw [State.request_eq] at hr
  simp [hf] at hr
  exact ⟨hr, rfl⟩

/-! ## A poll that reads -/

theorem State.Reads.cancelEff {s : State} {i : Instr} (h : s.Reads i) : s.cancelEff (s.cancelPin i) = false := by
  simp [State.cancelEff, h.2.1, h.2.2]

theorem State.Reads.request {s : State} {i : Instr} (h : s.Reads i) :
    s.request (s.cancelPin i) = min s.cfg.rxLanes (s.cfg.frameSize - s.fill) := by
  rw [State.request_eq, if_pos h]

theorem State.chunk_getD (s : State) {j : Nat} (hj : j < s.input.rxCount) :
    s.chunk.getD j 0 = s.input.rxBytes.getD j 0 := by
  simp [State.chunk, received, List.getD, hj]

/-- The frame a completing poll deserializes. -/
theorem frameAfterAppend_eq {s : State} (h : s.fill + s.input.rxCount = s.cfg.frameSize) :
    s.buf.read 0 s.fill ++ s.chunk = s.frameAfterAppend := by
  apply List.ext_getElem
  · simp [State.frameAfterAppend, h]
  · intro k _ _
    simp [State.frameAfterAppend, List.getElem_append, Memory.read, State.chunk, received]

/-- Everything a busy cycle with `rst = 0` can do when it answers a next state: cancelled, completed, or
appended, each with at most a rejecting ack beside it. -/
theorem exec_busy_cases {i : Instr} (hi : i ≠ .rst) {s t : State} (hf : s.faState = .active)
    (h : exec i s = .next t) :
    ∃ a t0, t = { t0 with out := { t0.out with ack := a } } ∧
      (a = none ∨ a = some .errBusy ∨ a = some .errIllegal) ∧ s.input.rxCount ≤ s.request (s.cancelPin i) ∧
      ((s.cancelEff (s.cancelPin i) = true ∧ t0 = endReceive s .cancelled (s.openCycle (s.cancelPin i))) ∨
       (s.Reads i ∧ s.fill < s.cfg.frameSize ∧ s.fill + s.input.rxCount = s.cfg.frameSize ∧
         t0 = endReceive s (deserialize s.cfg s.frameAfterAppend)
           ((s.openCycle (s.cancelPin i)).setBuf (s.buf.write s.fill s.chunk))) ∨
       (s.Reads i ∧ s.fill < s.cfg.frameSize ∧ s.fill + s.input.rxCount < s.cfg.frameSize ∧
         t0 = ((s.openCycle (s.cancelPin i)).setBuf (s.buf.write s.fill s.chunk)).setFill
           (s.fill + s.input.rxCount))) := by
  obtain ⟨hr, t0, hp, rfl⟩ := exec_cases hi h
  obtain ⟨a, ha, hcases⟩ := opPhase_busy_ack hf i t0
  rcases pollPhase_cases hp with ⟨hidle, -⟩ | ⟨-, hc, rfl⟩ | ⟨-, hc, hlt, rfl⟩
  · rw [hf] at hidle; cases hidle
  · rw [(endReceive_outputs _ _ _).1] at hcases
    exact ⟨a, _, ha, hcases, hr, .inl ⟨hc, rfl⟩⟩
  · rw [(append_outputs _ _ _).1] at hcases
    have hrd : s.Reads i := ⟨hf, by simpa [State.cancelEff] using hc⟩
    have hle : s.input.rxCount ≤ s.cfg.frameSize - s.fill := by rw [hrd.request] at hr; omega
    refine ⟨a, _, ha, hcases, hr, .inr ?_⟩
    by_cases hL : s.fill + s.input.rxCount = s.cfg.frameSize
    · exact .inl ⟨hrd, hlt, hL, by rw [append_complete (by simpa using hL), frameAfterAppend_eq hL]⟩
    · exact .inr ⟨hrd, hlt, by omega, by rw [append_partial (by simpa using hL)]; simp⟩

/-! ## `step` -/

/-- A step that answers a next state ran the cycle of the operation its ports present. -/
theorem step_cases {s t : State} (h : step s = .next t) :
    ∃ i, decodeCycle s.cfg s.input = .ok i ∧ exec i s = .next t := by
  unfold step at h
  split at h
  · exact ⟨_, ‹_›, h⟩
  · cases h

end Sys2Proof.Machine
end

