-- ==== Sys2Proof/Laws/Decode.lean ====
section
/-! SUPPORT. The arithmetic of bit fields and packed lanes (R9, R60). -/

namespace Sys2Proof

/-! ## Fields -/

theorem bits_eq (w lo len : Nat) : bits w lo len = w / 2 ^ lo % 2 ^ len := by
  rw [bits, Nat.shiftRight_eq_div_pow]

/-- A number has a bit at `n` or above exactly when it is at least `2^n`. -/
theorem shiftRight_ne_zero (w n : Nat) : w >>> n ≠ 0 ↔ 2 ^ n ≤ w := by
  rw [Nat.shiftRight_eq_div_pow, Ne, Nat.div_eq_zero_iff_lt (Nat.two_pow_pos n), Nat.not_lt]

/-- The width check of the decoder, as a comparison. -/
theorem decode_eq (c : Config) (w : Nat) : decode c w =
    if 2 ^ c.cmdwBits ≤ w then .error .wordTooWide
    else if bits w 0 3 = 0 then .ok .nop
    else if bits w 0 3 = 1 then .ok .recv
    else if bits w 0 3 = 2 then
      .ok (.send (BitVec.ofNat 8 (bits w 3 8)) (BitVec.ofNat 8 (bits w 11 8)) (BitVec.ofNat 8 (bits w 19 8))
        (lanes w 27 c.laneBits c.paramCount)
        ((lanes w (27 + c.laneBits * c.paramCount) 8 c.dataLen).map (BitVec.ofNat 8)))
    else if bits w 0 3 = 3 then .ok .hshake
    else .ok (.reserved (BitVec.ofNat 2 (bits w 0 2))) := by
  simp only [decode, shiftRight_ne_zero]

theorem bits_lt (w lo len : Nat) : bits w lo len < 2 ^ len := Nat.mod_lt _ (Nat.two_pow_pos len)

@[simp] theorem bits_low (w len : Nat) : bits w 0 len = w % 2 ^ len := by simp [bits_eq]

/-- A field that stands above `a` and below `high`. -/
theorem bits_field {lo len a v high : Nat} (ha : a < 2 ^ lo) (hv : v < 2 ^ len) :
    bits (a + 2 ^ lo * (v + 2 ^ len * high)) lo len = v := by
  simp only [bits_eq]
  rw [Nat.add_mul_div_left _ _ (Nat.two_pow_pos lo), Nat.div_eq_of_lt ha, Nat.zero_add,
    Nat.add_mul_mod_self_left, Nat.mod_eq_of_lt hv]

/-- A field read from bit `lo + k` is the field read at `k` of what stands above `lo`. -/
theorem bits_above {lo a r : Nat} (ha : a < 2 ^ lo) (k len : Nat) :
    bits (a + 2 ^ lo * r) (lo + k) len = bits r k len := by
  simp only [bits_eq]
  rw [Nat.pow_add, ← Nat.div_div_eq_div_mul, Nat.add_mul_div_left _ _ (Nat.two_pow_pos lo),
    Nat.div_eq_of_lt ha, Nat.zero_add]

/-- Bit k of a field of `w` is the bit of `w` at its place (R9). -/
theorem bits_testBit (w lo : Nat) {len k : Nat} (hk : k < len) : (bits w lo len).testBit k = w.testBit (lo + k) := by
  simp [bits_eq, Nat.testBit_mod_two_pow, Nat.testBit_div_two_pow, hk, Nat.add_comm]

/-- Bit k of a lane. -/
theorem ofNat_bits_getLsbD (w lo : Nat) {len k : Nat} (hk : k < len) :
    (BitVec.ofNat len (bits w lo len)).getLsbD k = w.testBit (lo + k) := by
  rw [BitVec.getLsbD_ofNat, bits_testBit w lo hk]
  simp [hk]

/-! ## Lanes -/

@[simp] theorem lanes_length (w lo width n : Nat) : (lanes w lo width n).length = n := by simp [lanes]

theorem lanes_getD (w lo width : Nat) {n i : Nat} (hi : i < n) :
    (lanes w lo width n).getD i 0 = bits w (lo + width * i) width := by
  simp [lanes, List.getD, hi]

/-- Every lane holds a number of its width. -/
theorem lt_of_mem_lanes {w lo width n v : Nat} (h : v ∈ lanes w lo width n) : v < 2 ^ width := by
  obtain ⟨i, -, rfl⟩ := List.mem_map.mp h
  exact bits_lt _ _ _

/-- Bytes read as lanes are those numbers. -/
theorem map_toNat_ofNat_lanes (w lo n : Nat) :
    ((lanes w lo 8 n).map (BitVec.ofNat 8)).map BitVec.toNat = lanes w lo 8 n := by
  rw [List.map_map]
  conv_rhs => rw [← List.map_id (lanes w lo 8 n)]
  refine List.map_congr_left fun v hv => ?_
  simpa using Nat.mod_eq_of_lt (lt_of_mem_lanes hv)

/-- Bytes written as numbers and read again are those bytes. -/
theorem map_ofNat_map_toNat (data : List (BitVec 8)) :
    (data.map BitVec.toNat).map (BitVec.ofNat 8) = data := by
  simp [List.map_map, Function.comp_def]

theorem lanes_succ (w lo width n : Nat) :
    lanes w lo width (n + 1) = bits w lo width :: lanes w (lo + width) width n := by
  simp only [lanes, List.range_succ_eq_map, List.map_cons, List.map_map, Nat.mul_zero, Nat.add_zero]
  congr 1
  refine List.map_congr_left fun i _ => ?_
  simp only [Function.comp]
  rw [show lo + width * (i + 1) = lo + width + width * i by rw [Nat.mul_add]; omega]

theorem lanes_above {lo a r : Nat} (ha : a < 2 ^ lo) (k width n : Nat) :
    lanes (a + 2 ^ lo * r) (lo + k) width n = lanes r k width n := by
  simp only [lanes]
  refine List.map_congr_left fun i _ => ?_
  rw [Nat.add_assoc, bits_above ha]

/-- Lanes that begin at bit `lo` are the lanes of what stands above `lo`. -/
theorem lanes_at {lo a r : Nat} (ha : a < 2 ^ lo) (width n : Nat) :
    lanes (a + 2 ^ lo * r) lo width n = lanes r 0 width n :=
  lanes_above ha 0 width n

theorem packLanes_lt (width : Nat) (vs : List Nat) : packLanes width vs < 2 ^ (width * vs.length) := by
  induction vs with
  | nil => simp [packLanes]
  | cons v vs ih =>
    simp only [packLanes, List.length_cons]
    have hv : v % 2 ^ width < 2 ^ width := Nat.mod_lt _ (Nat.two_pow_pos width)
    have e : 2 ^ (width * (vs.length + 1)) = 2 ^ width * 2 ^ (width * vs.length) := by
      rw [← Nat.pow_add]; congr 1; rw [Nat.mul_add]; omega
    rw [e]
    have : 2 ^ width * packLanes width vs + 2 ^ width ≤ 2 ^ width * 2 ^ (width * vs.length) := by
      rw [← Nat.mul_succ]; exact Nat.mul_le_mul_left _ ih
    omega

/-- Packed lanes that hold their numbers read back, whatever stands above them. -/
theorem lanes_packLanes {width : Nat} {vs : List Nat} (h : ∀ v ∈ vs, v < 2 ^ width) (high : Nat) :
    lanes (packLanes width vs + 2 ^ (width * vs.length) * high) 0 width vs.length = vs := by
  induction vs generalizing high with
  | nil => simp [lanes]
  | cons v vs ih =>
    have hv : v < 2 ^ width := h v (List.mem_cons_self ..)
    have e : packLanes width (v :: vs) + 2 ^ (width * (v :: vs).length) * high
        = v + 2 ^ width * (packLanes width vs + 2 ^ (width * vs.length) * high) := by
      simp only [packLanes, List.length_cons, Nat.mod_eq_of_lt hv]
      rw [show width * (vs.length + 1) = width + width * vs.length by rw [Nat.mul_add]; omega, Nat.pow_add,
        Nat.mul_add, ← Nat.mul_assoc, Nat.add_assoc]
    rw [e, List.length_cons, lanes_succ, show 0 + width = width + 0 by omega, lanes_above hv,
      ih fun u hu => h u (List.mem_cons_of_mem _ hu)]
    congr 1
    simp [Nat.mod_eq_of_lt hv]

/-- Reading lanes and packing them again gives the bits they were read from. -/
theorem packLanes_lanes (w width n : Nat) : packLanes width (lanes w 0 width n) = w % 2 ^ (width * n) := by
  induction n generalizing w with
  | zero => simp [lanes, packLanes, Nat.mod_one]
  | succ n ih =>
    have hsplit : w = w % 2 ^ width + 2 ^ width * (w / 2 ^ width) := (Nat.mod_add_div w _).symm
    have hlow : w % 2 ^ width < 2 ^ width := Nat.mod_lt _ (Nat.two_pow_pos width)
    have htail : lanes w (0 + width) width n = lanes (w / 2 ^ width) 0 width n := by
      conv_lhs => rw [hsplit]
      rw [show 0 + width = width + 0 by omega, lanes_above hlow]
    rw [lanes_succ, packLanes, htail, ih, show width * (n + 1) = width + width * n by rw [Nat.mul_add]; omega,
      Nat.pow_add, Nat.mod_mul]
    simp

end Sys2Proof
end

