-- ==== Sys2Proof/Laws/PerInstr.lean ====
section
/-! SUPPORT. One lemma per operation: the command word of a well-formed operation is a value of the
port `cmdw` (R60). -/

namespace Sys2Proof.Laws.EncodeFits

/-- The encoded word has no bit above `cmdw[cmdwBits-1]`. -/
def Statement (i : Instr) : Prop := ∀ c : Config, i.wellFormed c = true → encode c i < 2 ^ c.cmdwBits

/-- Every port is wide enough for the op field and the three operand bytes. -/
theorem small_lt {w : Nat} (h : w < 2 ^ 27) (c : Config) : w < 2 ^ c.cmdwBits :=
  Nat.lt_of_lt_of_le h (Nat.pow_le_pow_right (by decide) (by simp only [Config.cmdwBits]; omega))

theorem nop : Statement .nop := fun c _ => small_lt (by simp [encode]) c

theorem recv : Statement .recv := fun c _ => small_lt (by simp [encode]) c

theorem hshake : Statement .hshake := fun c _ => small_lt (by simp [encode]) c

theorem rst : Statement .rst := fun c _ => small_lt (by simp [encode]) c

theorem cancel : Statement .cancel := fun c _ => small_lt (by simp [encode]) c

theorem reserved (code : BitVec 2) : Statement (.reserved code) := fun c _ =>
  small_lt (by have := code.isLt; simp only [encode]; omega) c

theorem send (ptype cmd nparams : Byte) (params : List Nat) (data : List Byte) :
    Statement (.send ptype cmd nparams params data) := by
  intro c h
  simp only [Instr.wellFormed, Bool.and_eq_true, beq_iff_eq] at h
  have hp := packLanes_lt c.laneBits params
  have hd := packLanes_lt 8 (data.map BitVec.toNat)
  have h1 := ptype.isLt
  have h2 := cmd.isLt
  have h3 := nparams.isLt
  rw [h.1.1] at hp
  rw [List.length_map, h.1.2] at hd
  have e1 : 2 ^ c.cmdwBits = 2 ^ (27 + c.laneBits * c.paramCount) * 2 ^ (8 * c.dataLen) := by
    rw [← Nat.pow_add]; rfl
  have e2 : 2 ^ (27 + c.laneBits * c.paramCount) = 2 ^ 27 * 2 ^ (c.laneBits * c.paramCount) := Nat.pow_add 2 27 _
  have low : 2 + 2 ^ 3 * ptype.toNat + 2 ^ 11 * cmd.toNat + 2 ^ 19 * nparams.toNat
      + 2 ^ 27 * packLanes c.laneBits params < 2 ^ (27 + c.laneBits * c.paramCount) := by
    rw [e2]
    omega
  have high : 2 ^ (27 + c.laneBits * c.paramCount) * packLanes 8 (data.map BitVec.toNat)
      + 2 ^ (27 + c.laneBits * c.paramCount) ≤ 2 ^ (27 + c.laneBits * c.paramCount) * 2 ^ (8 * c.dataLen) := by
    rw [← Nat.mul_succ]; exact Nat.mul_le_mul_left _ hd
  rw [e1]
  simp only [encode]
  omega

end Sys2Proof.Laws.EncodeFits
end

