-- ==== Sys2Proof/Laws/Run.lean ====
section
/-! SUPPORT. Runs of several cycles, one cycle at a time. -/

namespace Sys2Proof.Machine

/-- A run of k + 1 cycles is one step and then a run of k cycles. -/
theorem run_succ {s t : State} (h : step s = .next t) (k : Nat) :
    Host.Core.run Sys2Proof.core (k + 1) s = Host.Core.run Sys2Proof.core k t := by
  have e : Sys2Proof.core.step s = .next t := h
  simp only [Host.Core.run]
  rw [e]

/-- The next stimulus is the input of the cycle. -/
theorem State.input_cons {s : State} {inp : CycleIn} {rest : List CycleIn} (h : s.stimulus = inp :: rest) :
    s.input = inp := by
  simp [State.input, h]

end Sys2Proof.Machine
end

