-- ==== Sys2Proof/Tests/Slice0.lean ====
section
/-! SUPPORT. Tests of single words, frames and steps, with the expected results of 95_test_vectors.md or
worked by hand from the rules, and a witness for the hypotheses of every statement. -/

namespace Sys2Proof.Machine.Tests

/-! ## Helpers -/

/-- The smallest instance that still has a parameter and a data byte: C = 1, D = 1, L = 12, W = 12. -/
def tiny : Config := { Config.standard with paramCount := 1, dataLen := 1, rxLanes := 12 }

/-- The byte-serial instance of `tiny`: W = 1. -/
def serial : Config := { tiny with rxLanes := 1 }

/-- An instance with other widths, the byte-sum and big-endian fields: MAGIC_LEN = PARAM_LEN = 2, C = 1, D = 1, L = 8. -/
def narrow : Config :=
  { tiny with magicLen := 2, paramLen := 2, magic := 0x1234, byteOrder := .big, checksum := .byteSum, rxLanes := 8 }

/-- A state of instance `c` about to see `inp`. -/
def at_ (c : Config) (fa : FaState) (fill : Nat) (buf : Memory) (hs : HsState) (cancelQ : Bool) (inp : CycleIn) : State :=
  { State.reset with cfg := c, faState := fa, fill := fill, buf := buf, hsState := hs, cancelQ := cancelQ, stimulus := [inp] }

/-- The same, with a whole list of inputs to come. -/
def running (c : Config) (fa : FaState) (fill : Nat) (buf : Memory) (hs : HsState) (cancelQ : Bool)
    (inputs : List CycleIn) : State :=
  { State.reset with cfg := c, faState := fa, fill := fill, buf := buf, hsState := hs, cancelQ := cancelQ, stimulus := inputs }

/-- Cycle inputs that present `op` with `rx`, `cancel_in` and `rst`. -/
def now (c : Config) (op : Instr) (rx : List Byte := []) (cancel : Bool := false) (rst : Bool := false) : CycleIn :=
  withStimulus c op rx cancel rst

/-- The next state, if there is one. -/
def nextOf (o : Host.Outcome State Fault Refusal) : Option State :=
  match o with
  | .next t => some t
  | _ => none

/-- The refusal, if there is one. -/
def refusalOf (o : Host.Outcome State Fault Refusal) : Option Refusal :=
  match o with
  | .refused r => some r
  | _ => none

/-- A RESPONSE / RESP_OK frame of `tiny`, worked by hand from R73: its payload is 01 00 and five zeros, so its checksum is 01. -/
def tinyReply : List Byte := [0xFF, 0xFE, 0xFD, 0xFC, 0x01, 0x00, 0, 0, 0, 0, 0, 0x01]

/-- The first ten bytes of `tinyReply` as they stand in `buf`. -/
def tinyTen : Memory := [(0, 0xFF), (1, 0xFE), (2, 0xFD), (3, 0xFC), (4, 0x01)]

/-- V3 of section 2.1: RESPONSE / RESP_OK at the defaults. -/
def v3 : List Byte := [0xFF, 0xFE, 0xFD, 0xFC, 0x01, 0x00] ++ List.replicate 72 0 ++ [0x01]

/-- V1 of section 2.1: COMMAND / FORWARD [10, 50]. -/
def v1 : List Byte :=
  [0xFF, 0xFE, 0xFD, 0xFC, 0x00, 0x00, 0x0A, 0, 0, 0, 0x32] ++ List.replicate 67 0 ++ [0x38]

/-- The packet of V3. -/
def v3Packet : Packet := { ptype := 1, cmd := 0, params := List.replicate 10 0, data := List.replicate 32 0 }

/-! ## Well-formedness: each check refuses an ill-formed SEND -/

theorem test_wellFormed_refuses_missing_lane :
    (Instr.send 0 0 0 (List.replicate 9 0) (List.replicate 32 0)).wellFormed Config.standard = false := by decide

theorem test_wellFormed_refuses_extra_data :
    (Instr.send 0 0 0 (List.replicate 10 0) (List.replicate 33 0)).wellFormed Config.standard = false := by decide

/-! ## Decoding: words written out from R60 and R61 -/

theorem test_decode_nop : decode Config.standard 0b000 = .ok .nop := by decide

theorem test_decode_recv : decode Config.standard 0b001 = .ok .recv := by decide

theorem test_decode_hshake : decode Config.standard 0b011 = .ok .hshake := by decide

/-- R61: 110 is reserved; its low two bits are 10. -/
theorem test_decode_reserved : decode Config.standard 0b110 = .ok (.reserved 0b10) := by decide

/-- R60 at C = 1, D = 1, from bit 66 down to bit 0: s_data[0] = 5A, s_param[0] = 12345678, s_nparams = 01,
s_cmd = 04, s_ptype = 03, op = 010. -/
theorem test_decode_send_bits :
    decode tiny 0b01011010_00010010001101000101011001111000_00000001_00000100_00000011_010
      = .ok (.send 3 4 1 [0x12345678] [0x5A]) := by decide

/-- The same layout with lanes of 16 bits, worked by hand: bits 50 to 43 are s_data[0] = 5A, bits 42 to 27
s_param[0] = 1234. -/
theorem test_decode_narrow_lanes :
    decode narrow 0b01011010_0001001000110100_00000001_00000100_00000011_010
      = .ok (.send 3 4 1 [0x1234] [0x5A]) := by decide

theorem test_wellFormed_refuses_wide_param :
    (Instr.send 0 0 1 [0x10000] [0]).wellFormed narrow = false := by decide

theorem test_decode_refuses_wide_word : decode tiny (2 ^ 67) = .error .wordTooWide := by decide

/-- R161: the reset pin overrides the op field. -/
theorem test_decode_rst_pin : decodeCycle tiny (now tiny .recv [] true true) = .ok .rst := by decide

theorem test_decode_cancel_pin : decodeCycle tiny (now tiny .nop [] true) = .ok .cancel := by decide

/-- Section 3, P2 c2: `SEND PT_COMMAND, 0, [1]` is 0x8080002. -/
theorem test_assemble_p2_c2 :
    (match assemble Config.standard (.send 0 0 [1] []) with
      | .ok [i] => encode Config.standard i
      | _ => 0) = 0x8080002 := by decide +kernel

/-! ## The codec: rows of sections 2.1 and 2.2 -/

/-- V5: parameters are little-endian, and the checksum is 09. -/
theorem test_serialize_v5 :
    serialize Config.standard 0 1 2 [0x12345678, 0xFFFFFFFF] [] = .ok ([0xFF, 0xFE, 0xFD, 0xFC, 0x00, 0x01,
      0x78, 0x56, 0x34, 0x12, 0xFF, 0xFF, 0xFF, 0xFF] ++ List.replicate 64 0 ++ [0x09]) := by decide +kernel

/-- V6: a MESSAGE keeps its data. -/
theorem test_serialize_v6 :
    serialize Config.standard 3 0 0 [] [0x48, 0x69] = .ok ([0xFF, 0xFE, 0xFD, 0xFC, 0x03, 0x00] ++ List.replicate 40 0
      ++ [0x48, 0x69] ++ List.replicate 30 0 ++ [0x22]) := by decide +kernel

/-- R73, R172 and M6 in `narrow`, worked by hand: 12 34, 01 02, AB CD, 00, and 01 + 02 + AB + CD = 17B. -/
theorem test_serialize_narrow :
    serialize narrow 1 2 1 [0xABCD] [0xEE] = .ok [0x12, 0x34, 0x01, 0x02, 0xAB, 0xCD, 0x00, 0x7B] := by decide

/-- The same frame read back: the first byte of the parameter is its most significant one. -/
theorem test_deserialize_narrow :
    deserialize narrow [0x12, 0x34, 0x01, 0x02, 0xAB, 0xCD, 0x00, 0x7B]
      = .ok { ptype := 1, cmd := 2, params := [0xABCD], data := [0] } := by decide

/-- D-11: with a bad magic and a bad checksum, the magic is reported. -/
theorem test_deserialize_d11 :
    deserialize Config.standard ((v1.set 0 0x00).set 78 0x39) = .badPacket := by decide +kernel

/-- D-12: two changes that cancel are not detected. -/
theorem test_deserialize_d12 :
    deserialize Config.standard ((v1.set 6 0x0B).set 10 0x33) = .ok
      { ptype := 0, cmd := 0, params := [11, 51] ++ List.replicate 8 0, data := List.replicate 32 0 } := by
  decide +kernel

/-! ## One step: rows of sections 2.3 to 2.6 -/

/-- A2 in `tiny`: a zero-byte poll requests what is missing and changes nothing. -/
theorem test_nop_zero_byte_poll :
    (nextOf (step (at_ tiny .active 5 tinyTen .idle false (now tiny .nop)))).map
      (fun t => (t.out.rxReqMax, t.out.cpl, t.faState, t.fill)) = some (7, none, .active, 5) := by decide

/-- A3: the whole of V3 in one cycle completes the receive. -/
theorem test_nop_whole_frame :
    (nextOf (step (at_ Config.standard .active 0 [] .idle false (now Config.standard .nop v3)))).map
      (fun t => (t.out.rxReqMax, t.out.cpl, t.faState, t.fill))
        = some (79, some (.recvDone (.ok v3Packet)), .idle, 0) := by decide +kernel

/-- A1: an idle RECV starts, and requests no byte in its accept cycle. -/
theorem test_recv_accepted :
    (nextOf (step (at_ tiny .idle 0 [] .idle false (now tiny .recv)))).map
      (fun t => (t.out.ack, t.out.rxReqMax, t.faState, t.fill)) = some (some .started, 0, .active, 0) := by decide

/-- A15: bytes in RECV's accept cycle break the transport's contract. -/
theorem test_recv_accept_cycle_overrun :
    refusalOf (step (at_ tiny .idle 0 [] .idle false (now tiny .recv [1, 2, 3]))) = some .rxOverrun := by decide

/-- E1: the frame of S6 is transmitted. -/
theorem test_send_v1 :
    (nextOf (step (at_ Config.standard .idle 0 [] .idle false
        (now Config.standard (.send 0 0 2 ([10, 50] ++ List.replicate 8 7) (List.replicate 32 9)))))).map
      (fun t => (t.out.ack, t.out.tx)) = some (some .sent, some v1) := by decide +kernel

/-- E6: while busy, a SEND with too many parameters is ERR_BUSY, not ERR_PARAM_COUNT. -/
theorem test_send_busy_first :
    (nextOf (step (at_ tiny .active 2 [] .idle false (now tiny (.send 0 0 11 [0] [0]))))).map
      (fun t => (t.out.ack, t.out.tx, t.fill)) = some (some .errBusy, none, 2) := by decide

/-- H1, second cycle: RESPONSE / RESP_OK establishes the session. -/
theorem test_hshake_reply_ok :
    (nextOf (step (at_ tiny .active 10 tinyTen .awaiting false (now tiny .nop [0x00, 0x01])))).map
      (fun t => (t.hsState, t.out.cpl)) = some (.established, some (.hsDone .ok true .none (some 1))) := by decide

/-- H8: HSHAKE while ESTABLISHED. -/
theorem test_hshake_established :
    (nextOf (step (at_ tiny .idle 0 [] .established false (now tiny .hshake)))).map
      (fun t => (t.out.ack, t.out.tx, t.hsState, t.faState)) = some (some .errState, none, .established, .idle) := by
  decide

/-- K4: a reserved op beside a completion reports both. -/
theorem test_reserved_beside_completion :
    (nextOf (step (at_ tiny .active 10 tinyTen .idle false (now tiny (.reserved 0) [0x00, 0x00])))).map
      (fun t => (t.out.ack, t.out.cpl, t.faState)) = some (some .errIllegal, some (.recvDone .badChecksum), .idle) := by
  decide

/-- K5 and K9: reset ignores the op and `cancel_in`, and its cycle still shows the state before. -/
theorem test_rst_cycle :
    (nextOf (step (at_ tiny .active 5 tinyTen .awaiting true (now tiny .recv [] true true)))).map
      (fun t => (t.out.ack, t.out.stFill, t.fill, t.cancelQ, t.hsState))
        = some (none, 5, 0, false, .idle) := by decide

/-- A9: a cancelled poll leaves the last bytes with the transport. -/
theorem test_cancel_before_last_bytes :
    (nextOf (step (at_ tiny .active 10 tinyTen .idle false (now tiny .nop [] true)))).map
      (fun t => (t.out.rxReqMax, t.out.cpl, t.faState, t.fill, t.cancelQ))
        = some (0, some (.recvDone .cancelled), .idle, 0, true) := by decide

/-- A4 in `tiny`: with one lane, one byte is requested. -/
theorem test_byte_serial_request :
    (nextOf (step (at_ serial .active 5 tinyTen .idle false (now serial .nop [0x07])))).map
      (fun t => (t.out.rxReqMax, t.fill, t.buf)) = some (1, 6, tinyTen ++ [(5, 0x07)]) := by decide

/-! ## Witnesses: states and operands that meet the hypotheses of each statement together -/

theorem witness_EveryOpValueDecodes :
    ∃ w0 w1 w2 w3 w4 w5 w6 w7 : Nat, (w0 < 2 ^ tiny.cmdwBits ∧ w0 % 8 = 0) ∧ (w1 < 2 ^ tiny.cmdwBits ∧ w1 % 8 = 1) ∧
      (w2 < 2 ^ tiny.cmdwBits ∧ w2 % 8 = 2) ∧ (w3 < 2 ^ tiny.cmdwBits ∧ w3 % 8 = 3) ∧
      (w4 < 2 ^ tiny.cmdwBits ∧ w4 % 8 = 4) ∧ (w5 < 2 ^ tiny.cmdwBits ∧ w5 % 8 = 5) ∧
      (w6 < 2 ^ tiny.cmdwBits ∧ w6 % 8 = 6) ∧ (w7 < 2 ^ tiny.cmdwBits ∧ w7 % 8 = 7) :=
  ⟨0, 1, 2 ^ 67 - 6, 3, 4, 5, 6, 2 ^ 67 - 1, by decide⟩

theorem witness_SendFieldPositions :
    (tiny.paramLen = 4 ∧ 2 ^ 67 - 6 < 2 ^ tiny.cmdwBits ∧ (2 ^ 67 - 6) % 8 = 2 ∧ 0 < tiny.paramCount ∧
      0 < tiny.dataLen) ∧
    (3 < 2 ^ tiny.cmdwBits ∧ 2 ^ 67 - 5 < 2 ^ tiny.cmdwBits ∧ 3 % 8 = (2 ^ 67 - 5) % 8 ∧ 3 % 8 ≠ 2) := by decide

theorem witness_SendLanesFollowParamLen :
    2 ^ 51 - 6 < 2 ^ narrow.cmdwBits ∧ (2 ^ 51 - 6) % 8 = 2 ∧ 0 < narrow.paramCount ∧ 0 < narrow.dataLen := by decide

theorem witness_DecodeEncodeRoundTrip :
    (Instr.send 0xFF 0xFF 0xFF [0xFFFFFFFF] [0xFF]).wellFormed tiny = true ∧ (Instr.rst).wellFormed tiny = true := by
  decide

theorem witness_EncodeOfDecodedWord :
    decode tiny (2 ^ 67 - 6) = .ok (.send 0xFF 0xFF 0xFF [0xFFFFFFFF] [0xFF]) ∧ decode tiny 9 = .ok .recv := by decide

theorem witness_PinsAndOpDecode :
    decode tiny (now tiny .recv [] true true).cmdw = .ok .recv ∧ (now tiny .recv [] true true).rst = true ∧
    decode tiny (now tiny .recv).cmdw = .ok .recv ∧ (now tiny .recv).rst = false ∧ (now tiny .recv).cancelIn = false ∧
    decode tiny (now tiny .recv [] true).cmdw = .ok .recv ∧ (now tiny .recv [] true).cancelIn = true ∧
    decode tiny (now tiny .nop [] true).cmdw = .ok .nop ∧ (now tiny .nop [] true).cancelIn = true := by decide

/-- Lists of 256, 255 and 2 values (past C = 1), data of 2 and 1 bytes. -/
theorem witness_AssembledSend :
    255 < (List.replicate 256 0).length ∧ (List.replicate 255 0).length ≤ 255 ∧
    tiny.dataLen < ([0, 0] : List Byte).length ∧ ([0] : List Byte).length ≤ tiny.dataLen ∧
    (∀ v ∈ [0xFFFFFFFF, 7], v < 2 ^ (8 * tiny.paramLen)) ∧ tiny.paramCount < [0xFFFFFFFF, 7].length ∧
    (0 < tiny.paramCount ∧ ([] : List Nat).length ≤ 0) := by
  decide +kernel

theorem witness_SerializeLayout :
    (tiny.paramCount ≤ tiny.paramCount ∧ 0 < tiny.paramCount ∧ 0 < tiny.dataLen ∧ tiny.checksum = .xorFold) ∧
    (0 ≤ narrow.paramCount ∧ narrow.checksum = .byteSum ∧ narrow.paramCount < 2) := by decide

theorem witness_TooManyParamsRejected :
    tiny.paramCount < 2 ∧ (at_ tiny .idle 0 [] .failed true (now tiny .nop)).faState = .idle ∧
    (at_ tiny .idle 0 [] .failed true (now tiny .nop)).input.rxCount = 0 ∧
    (at_ tiny .idle 0 [] .failed true (now tiny .nop)).cfg.paramCount < (2 : Byte).toNat := by decide

/-- Bytes 3 and 11 of the reply, and the last byte of a frame of `narrow`, are put wrong. -/
theorem witness_DeserializeByRule :
    tinyReply.length = tiny.frameSize ∧ (tinyReply.set 3 0).length = tiny.frameSize ∧
    (∃ k, k < tiny.magicLen ∧ (tinyReply.set 3 0).getD k 0 ≠ BitVec.ofNat 8
      (tiny.magic / 256 ^ (if tiny.byteOrder = .little then k else tiny.magicLen - 1 - k))) ∧
    (∀ k, k < tiny.magicLen → tinyReply.getD k 0 = BitVec.ofNat 8
      (tiny.magic / 256 ^ (if tiny.byteOrder = .little then k else tiny.magicLen - 1 - k))) ∧
    ((tinyReply.drop 4).take 7).foldl (fun a b => a ^^^ b) 0 = tinyReply.getD (tiny.frameSize - 1) 0 ∧
    (∀ k, k < tiny.magicLen → (tinyReply.set 11 0).getD k 0 = BitVec.ofNat 8
      (tiny.magic / 256 ^ (if tiny.byteOrder = .little then k else tiny.magicLen - 1 - k))) ∧
    (((tinyReply.set 11 0).drop 4).take 7).foldl (fun a b => a ^^^ b) 0
      ≠ (tinyReply.set 11 0).getD (tiny.frameSize - 1) 0 ∧
    (∀ k, k < narrow.magicLen → ([0x12, 0x34, 1, 2, 0xAB, 0xCD, 0, 0x7B] : List Byte).getD k 0
      = BitVec.ofNat 8 (narrow.magic / 256 ^ (if narrow.byteOrder = .little then k else narrow.magicLen - 1 - k))) ∧
    ([1, 2, 0xAB, 0xCD, 0] : List Byte).foldl (fun a b => a + b) 0 = 0x7B := by
  refine ⟨by decide, by decide, ⟨3, by decide⟩, by decide, by decide, by decide, by decide, by decide, by decide⟩

theorem witness_SingleVerdict : tinyReply.length = tiny.frameSize := by decide

theorem witness_SerializeRoundTrip :
    1 ≤ tiny.paramCount ∧ [0xFFFFFFFF].length = tiny.paramCount ∧ (∀ v ∈ [0xFFFFFFFF], v < 256 ^ tiny.paramLen) ∧
    ([0x5A] : List Byte).length = tiny.dataLen ∧ (3 : Byte) = tiny.ptMessage := by decide

theorem witness_SingleByteCorruptionDetected :
    serialize tiny 1 0 0 [0] [0] = .ok tinyReply ∧ (3 < tiny.frameSize ∧ (0 : Byte) ≠ tinyReply.getD 3 0) ∧
    (4 < tiny.frameSize ∧ (0 : Byte) ≠ tinyReply.getD 4 0) ∧ (11 < tiny.frameSize ∧ (0 : Byte) ≠ tinyReply.getD 11 0) := by
  decide

/-- Bytes 4 and 5 of the reply change places. -/
theorem witness_PayloadPermutationUndetected :
    tinyReply.length = tiny.frameSize ∧ ((tinyReply.set 4 0x00).set 5 0x01).length = tiny.frameSize ∧
    deserialize tiny tinyReply = .ok { ptype := 1, cmd := 0, params := [0], data := [0] } ∧
    ((tinyReply.set 4 0x00).set 5 0x01).take 4 = tinyReply.take 4 ∧
    ((tinyReply.set 4 0x00).set 5 0x01).getD (tiny.frameSize - 1) 0 = tinyReply.getD (tiny.frameSize - 1) 0 ∧
    ((tinyReply.drop tiny.magicLen).take (tiny.frameSize - (tiny.magicLen + 1))).Perm
      ((((tinyReply.set 4 0x00).set 5 0x01).drop tiny.magicLen).take (tiny.frameSize - (tiny.magicLen + 1))) :=
  ⟨by decide, by decide, by decide, by decide, by decide, List.Perm.swap _ _ _⟩

theorem witness_ResetStateValues :
    (at_ tiny .idle 0 [] .idle false (now tiny .recv [] true)).SameBlock State.reset ∧
    ∃ t, exec .recv (at_ tiny .idle 0 [] .idle false (now tiny .recv [] true)) = .next t :=
  ⟨by decide, ⟨_, rfl⟩⟩

theorem witness_CodecIsTransparent : tiny.paramCount ≤ tiny.paramCount ∧ ([1, 2, 3, 4, 5] : List Byte).length 
      = tiny.paramLen * tiny.paramCount + tiny.dataLen := by decide

theorem witness_UnusedSendLanesIgnored :
    (at_ tiny .idle 0 [] .idle false (now tiny .nop)).cfg = tiny ∧
    (∀ i, i < (0 : Byte).toNat → ([1] : List Nat).getD i 0 = ([2] : List Nat).getD i 0) ∧
    ((9 : Byte) = tiny.ptMessage → ∀ j, j < tiny.dataLen → ([1] : List Byte).getD j 0 = ([2] : List Byte).getD j 0) :=
  ⟨rfl, by decide, by decide⟩

theorem witness_ResetCycle :
    ((at_ tiny .active 5 tinyTen .awaiting true (now tiny .recv [] true true)).WordOk ∧
      (at_ tiny .active 5 tinyTen .awaiting true (now tiny .recv [] true true)).input.rst = true ∧
      (at_ tiny .active 5 tinyTen .awaiting true (now tiny .recv [] true true)).input.rxCount = 0) ∧
    ((at_ tiny .active 5 tinyTen .awaiting true (now tiny .nop [9] false true)).WordOk ∧
      (at_ tiny .active 5 tinyTen .awaiting true (now tiny .nop [9] false true)).input.rst = true ∧
      0 < (at_ tiny .active 5 tinyTen .awaiting true (now tiny .nop [9] false true)).input.rxCount) := by decide

/-- One idle state for CancelWhileIdle, NopWhileIdle, ReservedWhileIdle, RecvAccepted, SendAccepted and HshakeAccepted. -/
theorem witness_idle_ops :
    (at_ tiny .idle 0 tinyTen .failed false (now tiny .nop [] true)).faState = .idle ∧
    (at_ tiny .idle 0 tinyTen .failed false (now tiny .nop [] true)).input.rxCount = 0 ∧
    (1 : Byte).toNat ≤ (at_ tiny .idle 0 tinyTen .failed false (now tiny .nop [] true)).cfg.paramCount ∧
    (at_ tiny .idle 0 tinyTen .failed false (now tiny .nop [] true)).hsState ≠ .established := by decide

theorem witness_HshakeWhileEstablished :
    (at_ tiny .idle 0 [] .established false (now tiny .hshake)).faState = .idle ∧
    (at_ tiny .idle 0 [] .established false (now tiny .hshake)).input.rxCount = 0 ∧
    (at_ tiny .idle 0 [] .established false (now tiny .hshake)).hsState = .established := by decide

/-- A busy cycle with a next state, for RejectedOpsActAsNop and every statement about a next state. -/
theorem witness_busy_next :
    (at_ tiny .active 5 tinyTen .awaiting false (now tiny .nop [7])).faState = .active ∧
    (at_ tiny .active 5 tinyTen .awaiting false (now tiny .nop [7])).Inv ∧
    (at_ tiny .active 5 tinyTen .awaiting false (now tiny .nop [7])).buf.wf = true ∧
    (∃ t, exec .nop (at_ tiny .active 5 tinyTen .awaiting false (now tiny .nop [7])) = .next t ∧ t.faState = .active) ∧
    (∃ t, step (at_ tiny .active 5 tinyTen .awaiting false (now tiny .nop [7])) = .next t) :=
  ⟨by decide, by decide, by decide, ⟨_, rfl, by decide⟩, ⟨_, rfl⟩⟩

/-- An idle cycle that begins a receive, for the idle clauses of the transition statements. -/
theorem witness_idle_next :
    (at_ tiny .idle 0 [] .idle false (now tiny .hshake)).Inv ∧
    ∃ t, exec .hshake (at_ tiny .idle 0 [] .idle false (now tiny .hshake)) = .next t ∧ t.faState = .active :=
  ⟨by decide, ⟨_, rfl, by decide⟩⟩

/-- A cycle with a completion, for NoEarlyCompletion and PhasesDoNotInterfere. -/
theorem witness_NoEarlyCompletion :
    ∃ t, exec .nop (at_ tiny .active 5 [] .idle true (now tiny .nop)) = .next t ∧ t.out.cpl ≠ none :=
  ⟨_, rfl, by decide⟩

/-- A reset cycle, for the reset clauses of the statements about a next state. -/
theorem witness_reset_next :
    (at_ tiny .active 10 tinyTen .awaiting true (now tiny .nop [] false true)).Inv ∧
    ∃ t, exec .rst (at_ tiny .active 10 tinyTen .awaiting true (now tiny .nop [] false true)) = .next t ∧
      t.faState = .idle ∧ t.hsState = .idle ∧ t.cancelQ = false :=
  ⟨by decide, ⟨_, rfl, by decide⟩⟩

/-- The two endings of a handshake, for HandshakeTransitions and AccumulatorTransitions. -/
theorem witness_handshake_ends :
    (at_ tiny .active 0 [] .awaiting false (now tiny .nop tinyReply)).Inv ∧
    (∃ t, exec .nop (at_ tiny .active 0 [] .awaiting false (now tiny .nop tinyReply)) = .next t ∧
      t.hsState = .established) ∧
    (at_ tiny .active 11 tinyTen .awaiting false (now tiny .nop [0])).Inv ∧
    (∃ t, exec .nop (at_ tiny .active 11 tinyTen .awaiting false (now tiny .nop [0])) = .next t ∧
      t.hsState = .failed) :=
  ⟨by decide, ⟨_, rfl, by decide⟩, by decide, ⟨_, rfl, by decide⟩⟩

/-- One byte too many in a poll, in an idle cycle, in a cancelled poll and in a reset cycle, for
RefusedExactlyOnOverrun; and the full request, which has a step. -/
theorem witness_RefusedExactlyOnOverrun :
    refusalOf (exec .nop (at_ tiny .active 10 tinyTen .idle false (now tiny .nop [1, 2, 3]))) = some .rxOverrun ∧
    refusalOf (exec .nop (at_ tiny .active 10 tinyTen .idle false (now tiny .nop [1, 2]))) = none ∧
    refusalOf (exec .nop (at_ tiny .idle 0 [] .idle false (now tiny .nop [1]))) = some .rxOverrun ∧
    refusalOf (exec .cancel (at_ tiny .active 10 tinyTen .idle false (now tiny .nop [1]))) = some .rxOverrun ∧
    refusalOf (exec .rst (at_ tiny .active 10 tinyTen .idle false (now tiny .nop [1]))) = some .rxOverrun := by decide

/-- A cursor at L, which no run reaches, for FaultExactlyOnBrokenCursor. -/
theorem witness_FaultExactlyOnBrokenCursor :
    (at_ tiny .active 12 tinyTen .idle false (now tiny .nop)).Reads .nop ∧
    tiny.frameSize ≤ (at_ tiny .active 12 tinyTen .idle false (now tiny .nop)).fill ∧
    (at_ tiny .active 12 tinyTen .idle false (now tiny .nop)).input.rxCount = 0 := by decide

theorem witness_CancelledPollEndsReceive :
    ((at_ tiny .active 10 tinyTen .awaiting true (now tiny .nop)).faState = .active ∧
      ((at_ tiny .active 10 tinyTen .awaiting true (now tiny .nop)).cancelQ
        || (at_ tiny .active 10 tinyTen .awaiting true (now tiny .nop)).cancelPin .nop) = true ∧
      (at_ tiny .active 10 tinyTen .awaiting true (now tiny .nop)).input.rxCount = 0 ∧
      (at_ tiny .active 10 tinyTen .awaiting true (now tiny .nop)).hsState = .awaiting) ∧
    ((at_ tiny .active 0 [] .idle false (now tiny .nop [] true)).faState = .active ∧
      ((at_ tiny .active 0 [] .idle false (now tiny .nop [] true)).cancelQ
        || (at_ tiny .active 0 [] .idle false (now tiny .nop [] true)).cancelPin .cancel) = true ∧
      (at_ tiny .active 0 [] .idle false (now tiny .nop [] true)).input.rxCount = 0 ∧
      (at_ tiny .active 0 [] .idle false (now tiny .nop [] true)).hsState ≠ .awaiting) ∧
    ((at_ tiny .active 0 [] .idle false (now tiny .recv [1] true)).faState = .active ∧
      ((at_ tiny .active 0 [] .idle false (now tiny .recv [1] true)).cancelQ
        || (at_ tiny .active 0 [] .idle false (now tiny .recv [1] true)).cancelPin .recv) = true ∧
      0 < (at_ tiny .active 0 [] .idle false (now tiny .recv [1] true)).input.rxCount) := by decide

/-- The last byte that does not fill the frame. -/
theorem witness_PollAppends :
    (at_ tiny .active 10 tinyTen .idle false (now tiny .nop [7])).Inv ∧
    (at_ tiny .active 10 tinyTen .idle false (now tiny .nop [7])).Reads .nop ∧
    (at_ tiny .active 10 tinyTen .idle false (now tiny .nop [7])).input.rxCount ≤ min 12 (tiny.frameSize - 10) ∧
    10 + (at_ tiny .active 10 tinyTen .idle false (now tiny .nop [7])).input.rxCount < tiny.frameSize := by decide

theorem witness_PollCompletesFrame :
    (at_ tiny .active 10 tinyTen .idle false (now tiny .recv [0, 1])).Inv ∧
    (at_ tiny .active 10 tinyTen .idle false (now tiny .recv [0, 1])).Reads .recv ∧
    (at_ tiny .active 10 tinyTen .idle false (now tiny .recv [0, 1])).hsState ≠ .awaiting ∧
    (at_ tiny .active 10 tinyTen .idle false (now tiny .recv [0, 1])).input.rxCount ≤ min 12 (tiny.frameSize - 10) ∧
    10 + (at_ tiny .active 10 tinyTen .idle false (now tiny .recv [0, 1])).input.rxCount = tiny.frameSize := by decide

/-- The five endings of a handshake by its reply: success, both bad verdicts, wrong type and wrong command. The first
state of witness_CancelledPollEndsReceive meets the hypotheses of the sixth, a cancelled poll. -/
theorem witness_HandshakeReply :
    ((at_ tiny .active 0 [] .awaiting false (now tiny .nop tinyReply)).Inv ∧
      (at_ tiny .active 0 [] .awaiting false (now tiny .nop tinyReply)).Reads .nop ∧
      (at_ tiny .active 0 [] .awaiting false (now tiny .nop tinyReply)).hsState = .awaiting ∧
      (at_ tiny .active 0 [] .awaiting false (now tiny .nop tinyReply)).input.rxCount ≤ min 12 (tiny.frameSize - 0) ∧
      0 + (at_ tiny .active 0 [] .awaiting false (now tiny .nop tinyReply)).input.rxCount = tiny.frameSize) ∧
    deserialize tiny tinyReply = .ok { ptype := tiny.ptResponse, cmd := tiny.respOk, params := [0], data := [0] } ∧
    deserialize tiny (tinyReply.set 0 0) = .badPacket ∧ deserialize tiny (tinyReply.set 11 0) = .badChecksum ∧
    deserialize tiny ((tinyReply.set 4 0x09).set 11 0x09)
      = .ok { ptype := 0x09, cmd := 0x00, params := [0], data := [0] } ∧
    deserialize tiny ((tinyReply.set 5 0x01).set 11 0x00)
      = .ok { ptype := tiny.ptResponse, cmd := 0x01, params := [0], data := [0] } := by decide

/-- Two bytes are the full request at cursor 10, and three break the contract. -/
theorem witness_EveryContractCycleSteps :
    ((at_ tiny .active 10 tinyTen .idle false (now tiny .nop [0, 1])).Inv ∧
      (at_ tiny .active 10 tinyTen .idle false (now tiny .nop [0, 1])).WordOk ∧
      ((now tiny .nop [0, 1]).rst = false ∧ (now tiny .nop [0, 1]).cancelIn = false ∧
        (now tiny .nop [0, 1]).rxCount ≤ min 12 (tiny.frameSize - 10))) ∧
    ((at_ tiny .active 10 tinyTen .idle false (now tiny .nop [0, 1, 2])).Inv ∧
      (at_ tiny .active 10 tinyTen .idle false (now tiny .nop [0, 1, 2])).WordOk ∧
      min 12 (tiny.frameSize - 10) < (now tiny .nop [0, 1, 2]).rxCount) := by decide

theorem witness_StepRunsDecodedCycle :
    decodeCycle tiny (at_ tiny .idle 0 [] .idle false (now tiny .recv)).input = .ok .recv ∧
    (at_ tiny .idle 0 [] .idle false (now tiny .recv)).stimulus = now tiny .recv :: [] := by decide

theorem witness_SessionStaysOpen :
    (at_ tiny .idle 0 [] .established false (now tiny .recv [] true)).hsState = .established ∧
    (at_ tiny .idle 0 [] .established false (now tiny .recv [] true)).input.rst = false ∧
    ∃ t, step (at_ tiny .idle 0 [] .established false (now tiny .recv [] true)) = .next t :=
  ⟨by decide, by decide, ⟨_, rfl⟩⟩

theorem witness_LanesPastCountIgnored :
    (at_ tiny .active 5 [] .idle false { now tiny .nop [7] with rxBytes := [7, 8, 9] }).stimulus
      = { now tiny .nop [7] with rxBytes := [7, 8, 9] } :: [] ∧
    (∀ j, j < 1 → ([7, 8, 9] : List Byte).getD j 0 = ([7] : List Byte).getD j 0) := by decide

/-- Two buffers that agree on the two bytes below the cursor and differ above it. -/
theorem witness_StaleBytesUnobservable :
    (at_ tiny .active 2 [(0, 0xFF), (5, 1)] .idle false (now tiny .nop [7])).buf.wf = true ∧
    Memory.wf [(0, 0xFF), (2, 9)] = true ∧
    (∀ a, a < 2 → Memory.get [(0, 0xFF), (2, 9)] a = Memory.get [(0, 0xFF), (5, 1)] a) ∧
    ∃ t, step (at_ tiny .active 2 [(0, 0xFF), (5, 1)] .idle false (now tiny .nop [7])) = .next t :=
  ⟨by decide, by decide, by decide, ⟨_, rfl⟩⟩

/-- Chunks of 5, 0 and 7 bytes, with an op beside the second. -/
def chunks : List CycleIn := [now tiny .nop (tinyReply.take 5), now tiny .recv, now tiny .nop (tinyReply.drop 5)]

/-- One state for each kind of receive, with the stimulus `inputs ++ rest`. -/
theorem witness_ChunkingInvariance :
    (∀ hs ∈ [HsState.established, HsState.awaiting],
      (running tiny .active 0 [(9, 1)] hs false (chunks ++ [now tiny .hshake])).stimulus
        = chunks ++ [now tiny .hshake] ∧
      (running tiny .active 0 [(9, 1)] hs false (chunks ++ [now tiny .hshake])).faState = .active ∧
      (running tiny .active 0 [(9, 1)] hs false (chunks ++ [now tiny .hshake])).fill = 0 ∧
      (running tiny .active 0 [(9, 1)] hs false (chunks ++ [now tiny .hshake])).cancelQ = false ∧
      (running tiny .active 0 [(9, 1)] hs false (chunks ++ [now tiny .hshake])).BufferOk ∧
      (running tiny .active 0 [(9, 1)] hs false (chunks ++ [now tiny .hshake])).hsState = hs) ∧
    (∀ inp ∈ chunks,
      inp.rst = false ∧ inp.cancelIn = false ∧ inp.cmdw < 2 ^ tiny.cmdwBits ∧ inp.rxCount ≤ tiny.rxLanes) ∧
    (∀ k, k < chunks.length → ((chunks.take k).flatMap received).length < tiny.frameSize) ∧
    (chunks.flatMap received).length = tiny.frameSize := by decide

/-- A poll of a receive that holds ten bytes, and the start of one that holds none. -/
theorem witness_BufferHoldsTakenBytes :
    ((at_ tiny .active 10 tinyTen .idle false (now tiny .nop [7])).Inv ∧
      (at_ tiny .active 10 tinyTen .idle false (now tiny .nop [7])).HoldsTaken (tinyReply.take 10) ∧
      ∃ t, exec .nop (at_ tiny .active 10 tinyTen .idle false (now tiny .nop [7])) = .next t ∧ t.faState = .active) ∧
    ((at_ tiny .idle 0 tinyTen .idle false (now tiny .recv)).Inv ∧
      (at_ tiny .idle 0 tinyTen .idle false (now tiny .recv)).HoldsTaken [] ∧
      ∃ t, exec .recv (at_ tiny .idle 0 tinyTen .idle false (now tiny .recv)) = .next t ∧ t.faState = .active) :=
  ⟨⟨by decide, by decide, ⟨_, rfl, by decide⟩⟩, ⟨by decide, by decide, ⟨_, rfl, by decide⟩⟩⟩

theorem witness_ReceiveWaitsForBytes :
    (at_ tiny .active 5 tinyTen .awaiting false (now tiny .nop)).Inv ∧
    (at_ tiny .active 5 tinyTen .awaiting false (now tiny .nop)).faState = .active ∧
    (at_ tiny .active 5 tinyTen .awaiting false (now tiny .nop)).cancelQ = false ∧
    (at_ tiny .active 5 tinyTen .awaiting false (now tiny .nop)).stimulus
      = List.replicate 1 (withStimulus tiny .nop [] false false) ++ [] := by decide

/-- One idle, cancelled state for each clause: RECV (1) or HSHAKE (3), then a reserved op, then one cycle more. -/
theorem witness_CancelledBlockEndsEveryReceive :
    (∀ op ∈ [Instr.recv, Instr.hshake],
      (running tiny .idle 0 [] .failed true [now tiny op, now tiny (.reserved 3), now tiny .nop]).faState = .idle ∧
      (running tiny .idle 0 [] .failed true [now tiny op, now tiny (.reserved 3), now tiny .nop]).cancelQ = true ∧
      (running tiny .idle 0 [] .failed true [now tiny op, now tiny (.reserved 3), now tiny .nop]).stimulus
        = now tiny op :: now tiny (.reserved 3) :: [now tiny .nop] ∧
      (running tiny .idle 0 [] .failed true [now tiny op, now tiny (.reserved 3), now tiny .nop]).hsState ≠ .awaiting ∧
      (running tiny .idle 0 [] .failed true [now tiny op, now tiny (.reserved 3), now tiny .nop]).hsState
        ≠ .established ∧
      (now tiny op).rst = false ∧ (now tiny op).rxCount = 0) ∧
    (now tiny .recv).cmdw = 1 ∧ (now tiny .hshake).cmdw = 3 ∧ (now tiny (.reserved 3)).rst = false ∧
    (now tiny (.reserved 3)).rxCount = 0 ∧ (now tiny (.reserved 3)).cmdw < 2 ^ tiny.cmdwBits := by decide

/-- The outputs of one cycle of each kind: an ack beside a packet, and the end of a handshake. -/
theorem witness_ValidChannelsDrive :
    (∃ o : Outputs, o.ack = some .errBusy ∧ o.tx = some tinyReply ∧ o.cpl = some (.recvDone (.ok v3Packet))) ∧
    (∃ o : Outputs, o.cpl = some (.recvDone .badPacket)) ∧ (∃ o : Outputs, o.cpl = some (.recvDone .badChecksum)) ∧
    (∃ o : Outputs, o.cpl = some (.recvDone .cancelled)) ∧
    (∃ o : Outputs, o.cpl = some (.hsDone .ok false .wrongType (some 9))) :=
  ⟨⟨{ State.reset.out with ack := some .errBusy, tx := some tinyReply, cpl := some (.recvDone (.ok v3Packet)) },
      rfl, rfl, rfl⟩,
    ⟨{ State.reset.out with cpl := some (.recvDone .badPacket) }, rfl⟩,
    ⟨{ State.reset.out with cpl := some (.recvDone .badChecksum) }, rfl⟩,
    ⟨{ State.reset.out with cpl := some (.recvDone .cancelled) }, rfl⟩,
    ⟨{ State.reset.out with cpl := some (.hsDone .ok false .wrongType (some 9)) }, rfl⟩⟩

theorem witness_InvalidChannelsDriveZero :
    State.reset.out.ack = none ∧ State.reset.out.tx = none ∧ State.reset.out.cpl = none := by decide

end Sys2Proof.Machine.Tests
end

section
/-! PROOFS. The cancellation flag (R24): the opening of a cycle writes it, and neither phase does. -/

namespace Sys2Proof.Machine

/-- Phase P never writes the cancellation flag. -/
theorem pollPhase_cancelQ {s : State} {cancelIn : Bool} {t t' : State} (h : pollPhase s cancelIn t = .next t') :
    t'.cancelQ = t.cancelQ := by
  rcases pollPhase_cases h with ⟨-, rfl⟩ | ⟨-, -, rfl⟩ | ⟨-, -, -, rfl⟩
  · rfl
  · obtain ⟨-, -, -, hq, -⟩ := endReceive_fields s .cancelled t
    exact hq
  · exact (append_frame s s.chunk t).1

/-- Phase O never writes the cancellation flag: no operation clears it (R24). -/
@[simp] theorem opPhase_cancelQ (i : Instr) (s t : State) : (opPhase i s t).cancelQ = t.cancelQ := by
  obtain ⟨-, hq, -⟩ := opPhase_frame i s t
  exact hq

/-- After a cycle with `rst = 0` the flag is `cancel_eff`, as the cycle's opening set it (R162, R165). -/
theorem exec_cancelQ {i : Instr} (hi : i ≠ .rst) {s t : State} (h : exec i s = .next t) :
    t.cancelQ = s.cancelEff (s.cancelPin i) := by
  obtain ⟨-, t0, hp, rfl⟩ := exec_cases hi h
  calc (opPhase i s t0).cancelQ
      = t0.cancelQ := opPhase_cancelQ i s t0
    _ = (s.openCycle (s.cancelPin i)).cancelQ := pollPhase_cancelQ hp
    _ = s.cancelEff (s.cancelPin i) := State.openCycle_cancelQ s _

/-- After a reset cycle the flag is clear (R161). -/
theorem exec_rst_cancelQ {s t : State} (h : exec .rst s = .next t) : t.cancelQ = false := by
  obtain ⟨-, rfl⟩ := resetCycle_cases (exec_rst s ▸ h)
  exact State.resetBlock_cancelQ _

/-- Settles O22: the reset cycle clears the flag, and every other cycle leaves `cancel_eff` in it. -/
theorem cancelFlagIsSticky : Obligations.CancelFlagIsSticky := by
  intro i s t h
  by_cases hi : i = .rst
  · subst hi
    exact exec_rst_cancelQ h
  · rw [if_neg hi]
    exact exec_cancelQ hi h

end Sys2Proof.Machine
end

section
/-! PROOFS. The command word (R60, R61): what each row of the op table decodes to, and where SEND's
operands stand. -/

namespace Sys2Proof

/-! ## One equation a row of the op table (R61) -/

theorem decode_nop {c : Config} {w : Nat} (hw : w < 2 ^ c.cmdwBits) (hop : w % 8 = 0) : decode c w = .ok .nop := by
  simp [decode_eq, Nat.not_le.mpr hw, hop]

theorem decode_recv {c : Config} {w : Nat} (hw : w < 2 ^ c.cmdwBits) (hop : w % 8 = 1) : decode c w = .ok .recv := by
  simp [decode_eq, Nat.not_le.mpr hw, hop]

/-- SEND is the one operation whose operand fields are read. -/
theorem decode_send {c : Config} {w : Nat} (hw : w < 2 ^ c.cmdwBits) (hop : w % 8 = 2) :
    decode c w =
      .ok (.send (BitVec.ofNat 8 (bits w 3 8)) (BitVec.ofNat 8 (bits w 11 8)) (BitVec.ofNat 8 (bits w 19 8))
        (lanes w 27 c.laneBits c.paramCount)
        ((lanes w (27 + c.laneBits * c.paramCount) 8 c.dataLen).map (BitVec.ofNat 8))) := by
  simp [decode_eq, Nat.not_le.mpr hw, hop]

theorem decode_hshake {c : Config} {w : Nat} (hw : w < 2 ^ c.cmdwBits) (hop : w % 8 = 3) :
    decode c w = .ok .hshake := by
  simp [decode_eq, Nat.not_le.mpr hw, hop]

/-- A set bit 2 of the op field leaves its two low bits as the reserved code. -/
theorem decode_reserved {c : Config} {w : Nat} (hw : w < 2 ^ c.cmdwBits) (code : BitVec 2)
    (hop : w % 8 = 4 + code.toNat) : decode c w = .ok (.reserved code) := by
  have hcode : BitVec.ofNat 2 (w % 4) = code := by
    rw [show w % 4 = code.toNat by omega, BitVec.ofNat_toNat, BitVec.setWidth_eq]
  have hrow : ∀ n, n < 4 → w % 8 ≠ n := by omega
  simp [decode_eq, Nat.not_le.mpr hw, hrow, hcode]

/-- Only SEND reads the operand fields: under any other op the decoder sees the op field alone (R60). -/
theorem decode_congr_of_op {c : Config} {w w' : Nat} (hw : w < 2 ^ c.cmdwBits) (hw' : w' < 2 ^ c.cmdwBits)
    (hop : w % 8 = w' % 8) (hsend : w % 8 ≠ 2) : decode c w = decode c w' := by
  have hcode : w % 4 = w' % 4 := by omega
  have hsend' : w' % 8 ≠ 2 := hop ▸ hsend
  simp [decode_eq, Nat.not_le.mpr hw, Nat.not_le.mpr hw', hop, hsend', hcode]

/-- Settles O2: each clause is its row of the op table. -/
theorem everyOpValueDecodes : Obligations.EveryOpValueDecodes := fun _ _ hw =>
  ⟨decode_nop hw, decode_recv hw, fun hop => ⟨_, _, _, _, _, decode_send hw hop⟩, decode_hshake hw,
    decode_reserved hw 0, decode_reserved hw 1, decode_reserved hw 2, decode_reserved hw 3⟩

/-! ## The bits of a lane (R60) -/

theorem lanes_getD_lt (w lo width : Nat) {n i : Nat} (hi : i < n) : (lanes w lo width n).getD i 0 < 2 ^ width :=
  lanes_getD w lo width hi ▸ bits_lt w (lo + width * i) width

/-- Bit k of lane i, for lanes held as numbers. -/
theorem lanes_getD_testBit (w lo : Nat) {width n i k : Nat} (hi : i < n) (hk : k < width) :
    ((lanes w lo width n).getD i 0).testBit k = w.testBit (lo + width * i + k) := by
  rw [lanes_getD w lo width hi, bits_testBit w _ hk]

/-- Bit k of lane j, for lanes held as bytes. -/
theorem byteLanes_getD_getLsbD (w lo : Nat) {n j k : Nat} (hj : j < n) (hk : k < 8) :
    (((lanes w lo 8 n).map (BitVec.ofNat 8)).getD j 0).getLsbD k = w.testBit (lo + 8 * j + k) := by
  have hlane : ((lanes w lo 8 n).map (BitVec.ofNat 8)).getD j 0 = BitVec.ofNat 8 (bits w (lo + 8 * j) 8) := by
    rw [← lanes_getD w lo 8 hj]
    exact List.getD_map _ 0 (BitVec.ofNat 8)
  rw [hlane, ofNat_bits_getLsbD w _ hk]

theorem laneBits_of_paramLen_four {c : Config} (hlen : c.paramLen = 4) : c.laneBits = 32 := by
  rw [Config.laneBits, hlen]

/-- Settles O3: SEND's fields are slices of the word, whose bits are the word's at the slice's place. -/
theorem sendFieldPositions : Obligations.SendFieldPositions := by
  refine ⟨fun c w hlen hw hop => ?_, fun c w w' hw hw' => decode_congr_of_op hw hw', fun c hlen => ?_, rfl⟩
  · have hdec := decode_send hw hop
    rw [laneBits_of_paramLen_four hlen] at hdec
    refine ⟨_, _, _, _, _, hdec, lanes_length .., ?_, ?_, ?_, ?_, ?_, ?_⟩
    · rw [List.length_map, lanes_length]
    · exact fun k => ofNat_bits_getLsbD w 3
    · exact fun k => ofNat_bits_getLsbD w 11
    · exact fun k => ofNat_bits_getLsbD w 19
    · exact fun i hi => ⟨lanes_getD_lt w 27 32 hi, fun k => lanes_getD_testBit w 27 hi⟩
    · exact fun j k => byteLanes_getD_getLsbD w _
  · rw [Config.cmdwBits, laneBits_of_paramLen_four hlen]

end Sys2Proof
end

section
/-! PROOFS. The status outputs (R72): the opening of a cycle drives them, and neither phase drives them again. -/

namespace Sys2Proof.Machine

/-- The four status outputs `st_busy`, `st_hs`, `st_cancelled` and `st_fill` together. -/
def Outputs.status (o : Outputs) : Bool × HsState × Bool × Nat := (o.stBusy, o.stHs, o.stCancelled, o.stFill)

theorem Outputs.status_eq_iff {o o' : Outputs} : o.status = o'.status ↔
    o.stBusy = o'.stBusy ∧ o.stHs = o'.stHs ∧ o.stCancelled = o'.stCancelled ∧ o.stFill = o'.stFill := by
  simp [Outputs.status]

/-- Phase P drives no status output. -/
theorem pollPhase_status {s : State} {cancelIn : Bool} {t t' : State} (h : pollPhase s cancelIn t = .next t') :
    t'.out.status = t.out.status := by
  rcases pollPhase_cases h with ⟨-, rfl⟩ | ⟨-, -, rfl⟩ | ⟨-, -, -, rfl⟩
  · rfl
  · obtain ⟨-, -, -, hstatus⟩ := endReceive_outputs s .cancelled t
    exact Outputs.status_eq_iff.mpr hstatus
  · obtain ⟨-, -, -, hstatus⟩ := append_outputs s s.chunk t
    exact Outputs.status_eq_iff.mpr hstatus

/-- Phase O drives no status output. -/
theorem opPhase_status (i : Instr) (s t : State) : (opPhase i s t).out.status = t.out.status := by
  obtain ⟨-, -, -, -, -, -, -, hstatus⟩ := opPhase_frame i s t
  exact Outputs.status_eq_iff.mpr hstatus

/-- Every cycle's status outputs are the defaults, taken from the start-of-cycle state (R171). -/
theorem exec_status {i : Instr} {s t : State} (h : exec i s = .next t) :
    t.out.status = s.defaultOutputs.status := by
  by_cases hi : i = .rst
  · subst hi
    obtain ⟨-, rfl⟩ := resetCycle_cases (exec_rst s ▸ h)
    rfl
  · obtain ⟨-, t0, hp, rfl⟩ := exec_cases hi h
    calc (opPhase i s t0).out.status
        = t0.out.status := opPhase_status i s t0
      _ = (s.openCycle (s.cancelPin i)).out.status := pollPhase_status hp
      _ = s.defaultOutputs.status := rfl

/-- Settles O45: the default outputs copy the start-of-cycle state to the status pins. -/
theorem statusShowsCycleStart : Obligations.StatusShowsCycleStart := fun _ _ _ h =>
  Outputs.status_eq_iff.mp (exec_status h)

end Sys2Proof.Machine
end

section
/-! PROOFS. The code tables (R68, R83). -/

namespace Sys2Proof.Machine

/-- The two values that a three-bit code of six entries never takes. -/
theorem ne_six_and_ne_seven_of_lt {code : BitVec 3} (h : code < 6) : code ≠ 6 ∧ code ≠ 7 := by
  constructor <;> bv_omega

theorem AckCode.code_lt_six (a : AckCode) : a.code < 6 := by cases a <;> decide

theorem HsReason.code_lt_six (r : HsReason) : r.code < 6 := by cases r <;> decide

/-- Settles O55: the entries are the tables' rows, and both three-bit tables stay below 6. -/
theorem codeNumbers : Obligations.CodeNumbers :=
  ⟨-- the ack codes
    rfl, rfl, rfl, rfl, rfl, rfl,
    -- the verdicts
    rfl, rfl, rfl, rfl,
    -- the handshake reasons
    rfl, rfl, rfl, rfl, rfl, rfl,
    -- the session and accumulator states
    rfl, rfl, rfl, rfl, rfl, rfl,
    -- the values never taken
    fun a => ne_six_and_ne_seven_of_lt a.code_lt_six, fun r => ne_six_and_ne_seven_of_lt r.code_lt_six,
    -- the completion kinds
    fun _ => rfl, fun _ _ _ _ => rfl⟩

end Sys2Proof.Machine
end

section
/-! PROOFS. The cancelled poll (R92, R146): it requests no byte and ends the receive before any is taken. -/

namespace Sys2Proof.Machine

/-- A cancelled cycle requests no byte (R92, R208). -/
theorem State.request_cancelled {s : State} {cancelIn : Bool} (hc : s.cancelEff cancelIn = true) :
    s.request cancelIn = 0 := by
  simp [State.request, hc]

/-- A cycle with `rst = 0` that delivers more than was requested has no step (R170). -/
theorem exec_overrun {i : Instr} (hi : i ≠ .rst) {s : State}
    (hr : s.request (s.cancelPin i) < s.input.rxCount) : exec i s = .refused .rxOverrun := by
  have ho : s.overrun (s.cancelPin i) = true := decide_eq_true hr
  rw [exec_eq_runCycle hi, runCycle, if_pos ho]

/-- Outside AWAITING the end of a receive is a RECV_DONE, and the session stays (R99). -/
theorem endReceive_recvDone {s : State} (hs : s.hsState ≠ .awaiting) (r : RxResult) (t : State) :
    (endReceive s r t).hsState = t.hsState ∧ (endReceive s r t).out.cpl = some (.recvDone r) := by
  simp [endReceive, finish, hs]

/-- Inside AWAITING a cancelled receive fails the session (R146). -/
theorem endReceive_cancelled_awaiting {s : State} (hs : s.hsState = .awaiting) (t : State) :
    (endReceive s .cancelled t).hsState = .failed ∧
      (endReceive s .cancelled t).out.cpl = some (.hsDone .cancelled false .cancelled none) := by
  simp [endReceive, finish, hs, hsFinish, mismatch]

/-- The busy cycle that is cancelled, with no byte delivered: the receive ends, with at most an ack beside it. -/
theorem exec_cancelled {i : Instr} (hi : i ≠ .rst) {s : State} (hf : s.faState = .active)
    (hc : s.cancelEff (s.cancelPin i) = true) (h0 : s.input.rxCount = 0) :
    ∃ t0 a, t0 = endReceive s .cancelled (s.openCycle (s.cancelPin i)) ∧
      exec i s = .next { t0 with out := { t0.out with ack := a } } := by
  obtain ⟨a, ha, -⟩ := opPhase_busy_ack hf i (endReceive s .cancelled (s.openCycle (s.cancelPin i)))
  refine ⟨_, a, rfl, ?_⟩
  rw [← ha]
  exact exec_of_poll hi (by omega) (pollPhase_cancelled hf hc _)

/-- Settles O30: the request of a cancelled poll is 0, so a delivered byte is an overrun; with none delivered
the poll ends the receive as CANCELLED, and the op phase adds at most an ack. -/
theorem cancelledPollEndsReceive : Obligations.CancelledPollEndsReceive := by
  intro i s hi hf hc
  have hreq : s.request (s.cancelPin i) = 0 := State.request_cancelled hc
  refine ⟨fun h0 => ?_, fun hrx => exec_overrun hi (hreq ▸ hrx)⟩
  obtain ⟨t0, a, rfl, hexec⟩ := exec_cancelled hi hf hc h0
  obtain ⟨hfa, hfill, hbuf, hq, hcfg, hstim, hcycle⟩ :=
    endReceive_fields s .cancelled (s.openCycle (s.cancelPin i))
  obtain ⟨-, htx, hmax, -⟩ := endReceive_outputs s .cancelled (s.openCycle (s.cancelPin i))
  exact ⟨_, hexec, hfa, hfill, hbuf, hq.trans hc, ⟨hcfg, hstim, hcycle⟩, hmax.trans hreq, htx,
    fun hs => endReceive_recvDone hs _ _, fun hs => endReceive_cancelled_awaiting hs _⟩

end Sys2Proof.Machine
end

section
/-! PROOFS. What the Packet Codec never judges and what it rejects: any type, command or data byte passes (R118),
and more than C parameters make no frame (R113). -/

namespace Sys2Proof.Machine

/-! ## The two answers of Serialize -/

/-- Serialize refuses more than C parameters (R113). -/
theorem serialize_of_lt (c : Config) (ptype cmd : Byte) {n : Nat} (p : List Nat) (d : List Byte)
    (hn : c.paramCount < n) : serialize c ptype cmd n p d = .error .invalidParameterCount := by
  rcases serialize_cases c ptype cmd n p d with ⟨-, h⟩ | ⟨hle, -⟩
  · exact h
  · omega

/-- Up to C parameters Serialize makes the envelope of the packet, whatever the other fields hold (R112, R118). -/
theorem serialize_of_le (c : Config) (ptype cmd : Byte) {n : Nat} (p : List Nat) (d : List Byte)
    (hn : n ≤ c.paramCount) :
    serialize c ptype cmd n p d = .ok (envelope c (encodePacket c ptype cmd n p d)) := by
  rcases serialize_cases c ptype cmd n p d with ⟨hlt, -⟩ | ⟨-, h⟩
  · omega
  · exact h

/-! ## The fields of an envelope, by their place in the payload (R73, R117) -/

/-- The packetType byte opens the payload. -/
theorem envelope_getD_ptype (c : Config) (ptype cmd : Byte) (body : List Byte) :
    (envelope c (ptype :: cmd :: body)).getD c.magicLen 0 = ptype :=
  envelope_getD_payload c (k := 0) (by simp)

/-- The command byte follows the packetType. -/
theorem envelope_getD_cmd (c : Config) (ptype cmd : Byte) (body : List Byte) :
    (envelope c (ptype :: cmd :: body)).getD (c.magicLen + 1) 0 = cmd :=
  envelope_getD_payload c (k := 1) (by simp)

/-- The decoded data are the payload's bytes after the parameters: Deserialize masks none of them. -/
theorem decodeFields_envelope_data (c : Config) {payload : List Byte} (h : payload.length = c.payloadSize) :
    (decodeFields c (envelope c payload)).data = payload.drop (2 + c.paramLen * c.paramCount) := by
  rw [payloadSize_eq] at h
  apply List.ext_getElem
  · simp [decodeFields, h]
  · intro j hj _
    have hjD : j < c.dataLen := by simpa [decodeFields] using hj
    have hin : 2 + c.paramLen * c.paramCount + j < payload.length := by omega
    have hbyte : (envelope c payload).getD (c.dataOffset j) 0 = payload[2 + c.paramLen * c.paramCount + j] := by
      rw [dataOffset_eq, envelope_getD_payload c hin, List.getD_eq_getElem _ _ hin]
    simpa [decodeFields] using hbyte

/-- Settles O16: both directions follow from where an envelope holds its payload, with no case on a field's value. -/
theorem codecIsTransparent : Obligations.CodecIsTransparent := by
  refine ⟨fun c ptype cmd n p d hn => ?_, fun c ptype cmd body hbody => ?_⟩
  · exact ⟨_, serialize_of_le c ptype cmd p d hn, envelope_getD_ptype .., envelope_getD_cmd ..⟩
  · have hsize : ([ptype, cmd] ++ body).length = c.payloadSize := by
      rw [List.length_append, hbody, payloadSize_eq, ← Nat.add_assoc]
      rfl
    refine ⟨_, deserialize_envelope c hsize, envelope_getD_ptype .., envelope_getD_cmd .., ?_⟩
    rw [decodeFields_envelope_data c hsize]
    exact List.drop_length_add_append (l₁ := [ptype, cmd]) ..

/-! ## SEND with too many parameters (R113, R120) -/

/-- SEND's body raises Serialize's error and drives nothing else. -/
theorem sendBody_of_lt (ptype cmd : Byte) {nparams : Byte} (params : List Nat) (data : List Byte) {s : State}
    (hn : s.cfg.paramCount < nparams.toNat) (t : State) :
    sendBody ptype cmd nparams params data s t = t.setAck .errParamCount := by
  simp [sendBody, serialize_of_lt s.cfg ptype cmd params data hn]

/-- In an idle cycle SEND's op phase is its body. -/
theorem opPhase_send_idle {s : State} (hf : s.faState = .idle) (ptype cmd nparams : Byte) (params : List Nat)
    (data : List Byte) (t : State) :
    opPhase (.send ptype cmd nparams params data) s t = sendBody ptype cmd nparams params data s t := by
  simp [opPhase, unlessBusy, State.busy_eq_false.mpr hf]

/-- The idle cycle of a SEND with too many parameters: the opening of the cycle, and the ack. -/
theorem exec_send_of_lt (ptype cmd : Byte) {nparams : Byte} (params : List Nat) (data : List Byte) {s : State}
    (hf : s.faState = .idle) (h0 : s.input.rxCount = 0) (hn : s.cfg.paramCount < nparams.toNat) :
    exec (.send ptype cmd nparams params data) s
      = .next ((s.openCycle s.input.cancelIn).setAck .errParamCount) := by
  rw [exec_idle (by simp) hf h0, State.cancelPin_send, opPhase_send_idle hf, sendBody_of_lt ptype cmd params data hn]

/-- Settles O10: Serialize's two answers, and the idle cycle that raises the first as ERR_PARAM_COUNT. -/
theorem tooManyParamsRejected : Obligations.TooManyParamsRejected := by
  refine ⟨fun c ptype cmd n p d hn => serialize_of_lt c ptype cmd p d hn,
    fun c ptype cmd p d => ⟨_, serialize_of_le c ptype cmd p d le_rfl⟩,
    fun ptype cmd nparams params data s hf h0 hn => ⟨_, exec_send_of_lt ptype cmd params data hf h0 hn, ?_⟩⟩
  simp [State.cancelEff, State.AdvancesFrom]

end Sys2Proof.Machine
end

section
/-! PROOFS. The HELLO frame (R141): no parameters never exceed C, so Serialize makes the frame, and every byte
between the command and the checksum is 0x00. -/

namespace Sys2Proof.Machine

@[simp] theorem leBytes_zero (n : Nat) : leBytes n 0 = List.replicate n 0#8 := by
  induction n with
  | zero => rfl
  | succ n ih => simp [leBytes, ih, List.replicate_succ]

@[simp] theorem fieldBytes_zero (o : ByteOrder) (n : Nat) : fieldBytes o n 0 = List.replicate n 0#8 := by
  cases o with
  | little => exact leBytes_zero n
  | big => rw [fieldBytes, leBytes_zero, List.reverse_replicate]

@[simp] theorem checksum_replicate_zero (alg : ChecksumAlg) (n : Nat) : checksum alg (List.replicate n 0#8) = 0#8 := by
  induction n with
  | zero => rfl
  | succ n ih => rw [List.replicate_succ, checksum, ih, fold_zero]

/-- With `n = 0` every parameter of the packet is 0 (R110). -/
@[simp] theorem paddedParams_zero (c : Config) (p : List Nat) : paddedParams c 0 p = List.replicate c.paramCount 0 := by
  simp [paddedParams]

@[simp] theorem paramBytes_replicate_zero (c : Config) (n : Nat) :
    paramBytes c (List.replicate n 0) = List.replicate (c.paramLen * n) 0#8 := by
  simp [paramBytes, List.flatMap_replicate, Nat.mul_comm]

/-- Zero data stay zero, masked or not (R110, R65). -/
@[simp] theorem packetData_replicate_zero (c : Config) (ptype : Byte) (n : Nat) :
    packetData c ptype (List.replicate n 0#8) = List.replicate c.dataLen 0#8 := by
  apply List.ext_getElem
  · simp
  · intro j _ _
    simp [packetData]

/-- The HELLO frame of every instance: the magic, the type and the command, zeros, and the fold of the two. -/
theorem helloFrame_eq (c : Config) : helloFrame c =
    fieldBytes c.byteOrder c.magicLen c.magic ++
      (c.ptHello :: c.cmdStop :: List.replicate (c.paramLen * c.paramCount + c.dataLen) 0) ++
      [fold c.checksum c.ptHello c.cmdStop] := by
  have hpayload : encodePacket c c.ptHello c.cmdStop 0 (List.replicate c.paramCount 0) (List.replicate c.dataLen 0)
      = c.ptHello :: c.cmdStop :: List.replicate (c.paramLen * c.paramCount + c.dataLen) 0 := by
    simp [encodePacket]
  have hsum : ∀ n, checksum c.checksum (c.ptHello :: c.cmdStop :: List.replicate n 0)
      = fold c.checksum c.ptHello c.cmdStop := by
    simp [checksum]
  rw [helloFrame, hpayload, envelope, hsum]

/-- Settles O18: Serialize's answer up to C parameters, and the frame's form at the default parameters. -/
theorem helloFrameBytes : Obligations.HelloFrameBytes :=
  ⟨fun c => serialize_of_le c c.ptHello c.cmdStop _ _ (Nat.zero_le c.paramCount), helloFrame_eq Config.standard⟩

end Sys2Proof.Machine
end

section
/-! PROOFS. How a handshake's one receive ends (R144, R145): the poll that fills the frame gives its verdict to
HsFinish, and the op phase adds at most an ack. -/

namespace Sys2Proof.Machine

/-! ## The poll that fills the frame (R94) -/

theorem State.frameAfterAppend_getD (s : State) {k : Nat} (hk : k < s.cfg.frameSize) :
    s.frameAfterAppend.getD k 0 = if k < s.fill then s.buf.get k else s.input.rxBytes.getD (k - s.fill) 0 := by
  simp [State.frameAfterAppend, List.getD, hk]

/-- After a store that fills the frame the buffer holds the frame that is deserialized. -/
theorem get_write_chunk {s : State} (hwf : s.buf.wf = true) (hL : s.fill + s.input.rxCount = s.cfg.frameSize)
    {k : Nat} (hk : k < s.cfg.frameSize) : (s.buf.write s.fill s.chunk).get k = s.frameAfterAppend.getD k 0 := by
  rw [Memory.get_write hwf, State.chunk_length, State.frameAfterAppend_getD s hk]
  by_cases hlow : k < s.fill
  · rw [if_neg (by omega), if_pos hlow]
  · rw [if_pos (by omega), if_neg hlow, State.chunk_getD s (by omega)]

/-- A busy cycle, where its poll is known: the op phase adds at most an ack (R167). -/
theorem exec_busy_of_poll {i : Instr} (hi : i ≠ .rst) {s t : State} (hf : s.faState = .active)
    (hr : s.input.rxCount ≤ s.request (s.cancelPin i))
    (hp : pollPhase s (s.cancelPin i) (s.openCycle (s.cancelPin i)) = .next t) :
    ∃ a, exec i s = .next { t with out := { t.out with ack := a } } := by
  obtain ⟨a, ha, -⟩ := opPhase_busy_ack hf i t
  exact ⟨a, ha ▸ exec_of_poll hi hr hp⟩

/-- The busy cycle whose chunk fills the frame: the receive ends with the frame's verdict, with at most an ack
beside it. -/
theorem exec_completes {i : Instr} (hi : i ≠ .rst) {s : State} (hrd : s.Reads i) (hfill : s.fill < s.cfg.frameSize)
    (hr : s.input.rxCount ≤ min s.cfg.rxLanes (s.cfg.frameSize - s.fill))
    (hL : s.fill + s.input.rxCount = s.cfg.frameSize) :
    ∃ t0 a, t0 = endReceive s (deserialize s.cfg s.frameAfterAppend)
        ((s.openCycle (s.cancelPin i)).setBuf (s.buf.write s.fill s.chunk)) ∧
      exec i s = .next { t0 with out := { t0.out with ack := a } } := by
  have hpoll := pollPhase_reads hrd.1 hrd.cancelEff hfill (s.openCycle (s.cancelPin i))
  rw [append_complete (by rw [State.chunk_length, hL]), frameAfterAppend_eq hL] at hpoll
  obtain ⟨a, hexec⟩ := exec_busy_of_poll hi hrd.1 (hrd.request ▸ hr) hpoll
  exact ⟨_, a, rfl, hexec⟩

/-! ## HsFinish (R144 to R146) -/

/-- HsFinish ends a handshake as the table of endings says, whatever the verdict. -/
theorem hsFinish_endsHandshake (c : Config) (r : RxResult) (t : State) : (hsFinish c r t).EndsHandshake c r := by
  cases r with
  | ok pkt =>
    by_cases htype : pkt.ptype = c.ptResponse
    · by_cases hcmd : pkt.cmd = c.respOk
      · simp [State.EndsHandshake, hsFinish, htype, hcmd]
      · simp [State.EndsHandshake, hsFinish, mismatch, htype, hcmd]
    · simp [State.EndsHandshake, hsFinish, mismatch, htype]
  | badPacket => simp [State.EndsHandshake, hsFinish, mismatch]
  | badChecksum => simp [State.EndsHandshake, hsFinish, mismatch]
  | cancelled => simp [State.EndsHandshake, hsFinish, mismatch]

/-- Inside AWAITING the end of a receive is the end of the handshake (R99). -/
theorem endReceive_endsHandshake {s : State} (hs : s.hsState = .awaiting) (r : RxResult) (t : State) :
    (endReceive s r t).EndsHandshake s.cfg r := by
  rw [endReceive, finish, if_pos hs]
  exact hsFinish_endsHandshake s.cfg r _

/-- Settles O33: the poll that fills the frame and the cancelled poll both end the receive inside AWAITING; the ack
that the op phase may add is no part of a handshake's ending. -/
theorem handshakeReply : Obligations.HandshakeReply := by
  constructor
  · intro i s hi hinv hrd hs hr hL
    obtain ⟨hfill, -, -, hwf, -⟩ := hinv
    obtain ⟨t0, a, rfl, hexec⟩ := exec_completes hi hrd hfill hr hL
    obtain ⟨hfa, hcursor, hbuf, hq, hcfg, hstim, hcycle⟩ := endReceive_fields s
      (deserialize s.cfg s.frameAfterAppend) ((s.openCycle (s.cancelPin i)).setBuf (s.buf.write s.fill s.chunk))
    obtain ⟨-, htx, hmax, -⟩ := endReceive_outputs s
      (deserialize s.cfg s.frameAfterAppend) ((s.openCycle (s.cancelPin i)).setBuf (s.buf.write s.fill s.chunk))
    exact ⟨_, hexec, hfa, hcursor, hq.trans hrd.cancelEff, ⟨hcfg, hstim, hcycle⟩, htx, hmax.trans hrd.request,
      fun k hk => hbuf ▸ get_write_chunk hwf hL hk, endReceive_endsHandshake hs _ _⟩
  · intro i s hi hf hc hs h0
    obtain ⟨t0, a, rfl, hexec⟩ := exec_cancelled hi hf hc h0
    exact ⟨_, hexec, endReceive_endsHandshake hs _ _⟩

end Sys2Proof.Machine
end

section
/-! PROOFS. From the pins of a cycle to its operation (R60, R161, R165): a command word of the port always presents
one, `rst` makes it RST, and the pin of any other operation is `cancel_in`. -/

namespace Sys2Proof.Machine

/-- A value of the port decodes, and to an op: the pins are no command words (R61, R67). -/
theorem decode_ok_op {c : Config} {w : Nat} (hw : w < 2 ^ c.cmdwBits) :
    ∃ op, decode c w = .ok op ∧ op ≠ .rst ∧ op ≠ .cancel := by
  rw [decode_eq, if_neg (Nat.not_le.mpr hw)]
  -- one branch a row of the op table
  split
  · exact ⟨.nop, rfl, by simp⟩
  split
  · exact ⟨.recv, rfl, by simp⟩
  split
  · exact ⟨_, rfl, by simp⟩
  split
  · exact ⟨.hshake, rfl, by simp⟩
  · exact ⟨_, rfl, by simp⟩

/-- A step is the cycle of the operation its ports present (R160). -/
theorem step_of_decodeCycle {s : State} {i : Instr} (h : decodeCycle s.cfg s.input = .ok i) : step s = exec i s := by
  rw [step, h]

/-- A cycle with `rst = 1` is RST, whatever op is presented (R161). -/
theorem step_rst {s : State} (hw : s.WordOk) (hrst : s.input.rst = true) : step s = exec .rst s := by
  obtain ⟨op, hop, -, -⟩ := decode_ok_op hw
  exact step_of_decodeCycle (by simp [decodeCycle, hop, hrst])

/-- A cycle with `rst = 0` is one of the other operations, with `cancel_in` as its pin: it is named CANCEL only
where `cancel_in` is 1. -/
theorem step_eq_exec {s : State} (hw : s.WordOk) (hrst : s.input.rst = false) :
    ∃ i, i ≠ .rst ∧ s.cancelPin i = s.input.cancelIn ∧ step s = exec i s := by
  obtain ⟨op, hop, hne_rst, hne_cancel⟩ := decode_ok_op hw
  by_cases hcancel : op = .nop ∧ s.input.cancelIn = true
  · exact ⟨.cancel, by simp, hcancel.2.symm, step_of_decodeCycle (by simp [decodeCycle, hop, hrst, hcancel])⟩
  · exact ⟨op, hne_rst, if_neg hne_cancel, step_of_decodeCycle (by simp [decodeCycle, hop, hrst, if_neg hcancel])⟩

end Sys2Proof.Machine
end

section
/-! PROOFS. Rejected ops (R166, R167): the cycle of an op is NOP's cycle followed by its own op phase, and a
rejected op's phase is an ack. -/

namespace Sys2Proof.Machine

/-- Where NOP has a next state, an op with the same pin has one: Phase P is the same, and Phase O follows it. -/
theorem exec_of_nop {i : Instr} (hi : i ≠ .rst) {s t : State} (hpin : s.cancelPin i = s.input.cancelIn)
    (h : exec .nop s = .next t) : exec i s = .next (opPhase i s t) := by
  obtain ⟨hr, t0, hp, rfl⟩ := exec_cases (by simp) h
  rw [State.cancelPin_nop, ← hpin] at hr hp
  exact exec_of_poll hi hr hp

/-- While busy an op of the three families raises ERR_BUSY and does nothing of its own (R163, R167). -/
theorem unlessBusy_active {s : State} (hf : s.faState = .active) (body : State → State → State) (t : State) :
    unlessBusy body s t = t.setAck .errBusy :=
  if_pos (State.busy_eq_true.mpr hf)

/-- An op whose phase is an ack does what NOP does, with that ack (R166, R167). -/
theorem exec_eq_nop_setAck {i : Instr} (hi : i ≠ .rst) {s t : State} (hpin : s.cancelPin i = s.input.cancelIn)
    (h : exec .nop s = .next t) {e : AckCode} (hop : opPhase i s t = t.setAck e) : exec i s = .next (t.setAck e) := by
  rw [exec_of_nop hi hpin h, hop]

/-- Settles O29: each rejected op runs NOP's cycle and then an op phase that only raises its error. -/
theorem rejectedOpsActAsNop : Obligations.RejectedOpsActAsNop := by
  intro s t hnop
  refine ⟨fun hf => ⟨?_, ?_, fun ptype cmd nparams params data => ?_⟩, fun code => ?_⟩
  · exact exec_eq_nop_setAck (by simp) rfl hnop (unlessBusy_active hf recvBody t)
  · exact exec_eq_nop_setAck (by simp) rfl hnop (unlessBusy_active hf hshakeBody t)
  · exact exec_eq_nop_setAck (by simp) rfl hnop (unlessBusy_active hf (sendBody ptype cmd nparams params data) t)
  · exact exec_eq_nop_setAck (by simp) rfl hnop rfl

end Sys2Proof.Machine
end

section
/-! PROOFS. The transport's contract (R170) and the reset cycle (R161): within the request a cycle answers a next
state, beyond it the cycle is refused. -/

namespace Sys2Proof.Machine

/-! ## The reset cycle -/

/-- A reset cycle with no byte delivered resets the block (R161). -/
theorem exec_rst_next {s : State} (h0 : s.input.rxCount = 0) : exec .rst s = .next s.beginCycle.resetBlock := by
  rw [exec_rst, resetCycle, if_neg (by omega)]

/-- A reset cycle requests nothing, so a delivered byte breaks the contract (R170). -/
theorem exec_rst_overrun {s : State} (hrx : 0 < s.input.rxCount) : exec .rst s = .refused .rxOverrun := by
  rw [exec_rst, resetCycle, if_pos hrx]

/-- Settles O20: with `rst = 1` the cycle is RST, which resets the block over the default outputs. -/
theorem resetCycle_resets : Obligations.ResetCycle := by
  intro s hw hrst
  have hstep : step s = exec .rst s := step_rst hw hrst
  refine ⟨fun h0 => ?_, fun hrx => hstep.trans (exec_rst_overrun hrx)⟩
  have hexec := exec_rst_next h0
  exact ⟨_, hstep.trans hexec, hexec, rfl, rfl, Memory.get_nil, rfl, rfl, rfl, rfl, rfl, rfl⟩

/-! ## The cycles with `rst = 0` -/

/-- With the cursor inside the frame Phase P answers a next state (R22, R93). -/
theorem pollPhase_next {s : State} (hfill : s.fill < s.cfg.frameSize) (cancelIn : Bool) (t : State) :
    ∃ t', pollPhase s cancelIn t = .next t' := by
  cases hf : s.faState with
  | idle => exact ⟨_, pollPhase_idle hf cancelIn t⟩
  | active =>
    cases hc : s.cancelEff cancelIn with
    | true => exact ⟨_, pollPhase_cancelled hf hc t⟩
    | false => exact ⟨_, pollPhase_reads hf hc hfill t⟩

/-- Within the request every operation but RST has a next state (R170). -/
theorem exec_next {i : Instr} (hi : i ≠ .rst) {s : State} (hfill : s.fill < s.cfg.frameSize)
    (hr : s.input.rxCount ≤ s.request (s.cancelPin i)) : ∃ t, exec i s = .next t := by
  obtain ⟨t, hp⟩ := pollPhase_next hfill (s.cancelPin i) (s.openCycle (s.cancelPin i))
  exact ⟨_, exec_of_poll hi hr hp⟩

/-- `rx_req_max` by the cycles that request nothing: the idle and the cancelled ones (R92, R208). -/
theorem State.request_eq_of_idle_or_cancelled (s : State) (cancelIn : Bool) :
    s.request cancelIn = if s.faState = .idle ∨ (s.cancelQ || cancelIn) = true then 0
      else min s.cfg.rxLanes (s.cfg.frameSize - s.fill) := by
  cases hf : s.faState with
  | idle => simp [State.request, State.busy, hf]
  | active => cases hc : (s.cancelQ || cancelIn) <;> simp [State.request, State.busy, State.cancelEff, hf, hc]

/-- Settles O35: a reset cycle requests nothing; in every other cycle the limit is the request of its operation. -/
theorem everyContractCycleSteps : Obligations.EveryContractCycleSteps := by
  intro s hinv hw
  cases hrst : s.input.rst with
  | true =>
    rw [if_pos (.inl rfl), step_rst hw hrst]
    exact ⟨fun h0 => ⟨_, exec_rst_next (Nat.le_zero.mp h0)⟩, exec_rst_overrun⟩
  | false =>
    obtain ⟨hfill, -⟩ := hinv
    obtain ⟨i, hi, hpin, hstep⟩ := step_eq_exec hw hrst
    simp only [Bool.false_eq_true, false_or]
    rw [← State.request_eq_of_idle_or_cancelled, ← hpin, hstep]
    exact ⟨exec_next hi hfill, exec_overrun hi⟩

end Sys2Proof.Machine
end

section
/-! PROOFS. The state after reset (R200). -/

namespace Sys2Proof.Machine

/-- The default outputs show nothing but the block. -/
theorem State.SameBlock.defaultOutputs_eq {s t : State} (h : s.SameBlock t) : s.defaultOutputs = t.defaultOutputs := by
  obtain ⟨hfa, hfill, -, hq, hhs⟩ := h
  simp only [State.defaultOutputs, hfa, hfill, hq, hhs]

/-- The default outputs of the state after reset are the outputs that state holds: every status output is 0. -/
theorem State.reset_defaultOutputs : State.reset.defaultOutputs = State.reset.out := rfl

/-- Settles O19: a cycle's status outputs are the defaults of its start, here those of the state after reset. -/
theorem resetStateValues : Obligations.ResetStateValues := by
  refine ⟨rfl, rfl, Memory.get_nil, rfl, rfl, fun i s t hblock hexec => ?_⟩
  refine Outputs.status_eq_iff (o' := State.reset.out).mp ?_
  calc t.out.status
      = s.defaultOutputs.status := exec_status hexec
    _ = State.reset.defaultOutputs.status := by rw [hblock.defaultOutputs_eq]
    _ = State.reset.out.status := by rw [State.reset_defaultOutputs]

end Sys2Proof.Machine
end

section
/-! PROOFS. The encoder and the decoder undo each other (R60, R61): SEND's word read as the op field, three bytes and
what stands above them, the packed lanes. -/

namespace Sys2Proof

/-! ## SEND's word as its fields -/

/-- What stands above the three operand bytes of SEND: the parameter lanes, and above them the data lanes. -/
def sendLanes (c : Config) (params : List Nat) (data : List Byte) : Nat :=
  packLanes c.laneBits params + 2 ^ (c.laneBits * c.paramCount) * packLanes 8 (data.map BitVec.toNat)

theorem encode_send (c : Config) (ptype cmd nparams : Byte) (params : List Nat) (data : List Byte) :
    encode c (.send ptype cmd nparams params data) =
      2 + 2 ^ 3 * ptype.toNat + 2 ^ 11 * cmd.toNat + 2 ^ 19 * nparams.toNat + 2 ^ 27 * sendLanes c params data := by
  rw [encode, sendLanes, Nat.pow_add, Nat.mul_add, Nat.mul_assoc, ← Nat.add_assoc]

/-- A byte field read back, given what stands below and above it in the word. -/
theorem ofNat_bits_field {w lo low high : Nat} {b : Byte} (hlow : low < 2 ^ lo)
    (hw : w = low + 2 ^ lo * (b.toNat + 2 ^ 8 * high)) : BitVec.ofNat 8 (bits w lo 8) = b := by
  rw [hw, bits_field hlow b.isLt, BitVec.ofNat_toNat, BitVec.setWidth_eq]

/-- Parameter lanes read back from the lanes of SEND. -/
theorem lanes_sendLanes_params {c : Config} {params : List Nat} (hlen : params.length = c.paramCount)
    (hfit : ∀ v ∈ params, v < 2 ^ c.laneBits) (data : List Byte) :
    lanes (sendLanes c params data) 0 c.laneBits c.paramCount = params := by
  rw [sendLanes, ← hlen]
  exact lanes_packLanes hfit _

/-- Data lanes read back from the lanes of SEND. -/
theorem lanes_sendLanes_data {c : Config} {params : List Nat} (hlen : params.length = c.paramCount)
    {data : List Byte} (hdata : data.length = c.dataLen) :
    (lanes (sendLanes c params data) (c.laneBits * c.paramCount) 8 c.dataLen).map (BitVec.ofNat 8) = data := by
  have hlow : packLanes c.laneBits params < 2 ^ (c.laneBits * c.paramCount) := hlen ▸ packLanes_lt c.laneBits params
  have hbytes : ∀ v ∈ data.map BitVec.toNat, v < 2 ^ 8 := by
    simpa using fun b _ => BitVec.isLt b
  have hpacked := lanes_packLanes hbytes 0
  rw [Nat.mul_zero, Nat.add_zero, List.length_map, hdata] at hpacked
  rw [sendLanes, lanes_at hlow, hpacked, map_ofNat_map_toNat]

/-- The operand lanes of a well-formed SEND are those of the port. -/
theorem wellFormed_send_iff {c : Config} {ptype cmd nparams : Byte} {params : List Nat} {data : List Byte} :
    (Instr.send ptype cmd nparams params data).wellFormed c = true ↔
      params.length = c.paramCount ∧ data.length = c.dataLen ∧ ∀ v ∈ params, v < 2 ^ c.laneBits := by
  simp [Instr.wellFormed, Config.laneBits, and_assoc]

/-! ## Decoding an encoded operation -/

theorem decode_encode_send {c : Config} {ptype cmd nparams : Byte} {params : List Nat} {data : List Byte}
    (h : (Instr.send ptype cmd nparams params data).wellFormed c = true) :
    decode c (encode c (.send ptype cmd nparams params data)) = .ok (.send ptype cmd nparams params data) := by
  have hfits := Laws.EncodeFits.send ptype cmd nparams params data c h
  obtain ⟨hlen, hdata, hfit⟩ := wellFormed_send_iff.mp h
  have hp := ptype.isLt
  have hc := cmd.isLt
  have hn := nparams.isLt
  have hw := encode_send c ptype cmd nparams params data
  generalize encode c (.send ptype cmd nparams params data) = w at hfits hw
  have hlow : 2 + 2 ^ 3 * ptype.toNat + 2 ^ 11 * cmd.toNat + 2 ^ 19 * nparams.toNat < 2 ^ 27 := by omega
  have hptype : BitVec.ofNat 8 (bits w 3 8) = ptype :=
    ofNat_bits_field (low := 2) (by decide)
      (high := cmd.toNat + 2 ^ 8 * nparams.toNat + 2 ^ 16 * sendLanes c params data) (by omega)
  have hcmd : BitVec.ofNat 8 (bits w 11 8) = cmd :=
    ofNat_bits_field (low := 2 + 2 ^ 3 * ptype.toNat) (by omega)
      (high := nparams.toNat + 2 ^ 8 * sendLanes c params data) (by omega)
  have hnparams : BitVec.ofNat 8 (bits w 19 8) = nparams :=
    ofNat_bits_field (low := 2 + 2 ^ 3 * ptype.toNat + 2 ^ 11 * cmd.toNat) (by omega)
      (high := sendLanes c params data) (by omega)
  have hparams : lanes w 27 c.laneBits c.paramCount = params := by
    rw [hw, lanes_at hlow, lanes_sendLanes_params hlen hfit]
  have hbytes : (lanes w (27 + c.laneBits * c.paramCount) 8 c.dataLen).map (BitVec.ofNat 8) = data := by
    rw [hw, lanes_above hlow, lanes_sendLanes_data hlen hdata]
  rw [decode_send hfits (by omega), hptype, hcmd, hnparams, hparams, hbytes]

/-- The op a cycle presents: a pin stands beside NOP. -/
def Instr.presentedOp : Instr → Instr
  | .rst => .nop
  | .cancel => .nop
  | i => i

/-- The word of an operation decodes to the op it presents (R60, R61). -/
theorem decode_encode {c : Config} {i : Instr} (h : i.wellFormed c = true) :
    decode c (encode c i) = .ok i.presentedOp := by
  cases i with
  | nop => exact decode_nop (Laws.EncodeFits.nop c h) rfl
  | recv => exact decode_recv (Laws.EncodeFits.recv c h) rfl
  | send ptype cmd nparams params data => exact decode_encode_send h
  | hshake => exact decode_hshake (Laws.EncodeFits.hshake c h) rfl
  | reserved code =>
    have hcode := code.isLt
    exact decode_reserved (Laws.EncodeFits.reserved code c h) code (by rw [encode]; omega)
  | rst => exact decode_nop (Laws.EncodeFits.rst c h) rfl
  | cancel => exact decode_nop (Laws.EncodeFits.cancel c h) rfl

/-! ## The pins (R161, R165) -/

/-- Settles O7: each clause is its branch of the cycle's decoding. -/
theorem pinsAndOpDecode : Obligations.PinsAndOpDecode := by
  intro c inp op hop
  refine ⟨fun hrst => ?_, fun hrst hpin => ?_, fun hrst hpin hne => ?_, fun hrst hpin hnop => ?_⟩
  · simp [decodeCycle, hop, hrst]
  · simp [decodeCycle, hop, hrst, hpin]
  · simp [decodeCycle, hop, hrst, hne]
  · simp [decodeCycle, hop, hrst, hpin, hnop]

/-- Settles O5: the word gives back the op, and the pins say which of RST, CANCEL and the op the cycle is. -/
theorem decodeEncodeRoundTrip : Obligations.DecodeEncodeRoundTrip := by
  intro c i h
  have hword : decode c (encodeCycle c i).cmdw = .ok i.presentedOp := decode_encode h
  obtain ⟨hrst, hplain, -, hcancel⟩ := pinsAndOpDecode c (encodeCycle c i) _ hword
  cases i with
  | rst => exact hrst rfl
  | cancel => exact hcancel rfl rfl rfl
  | _ => exact hplain rfl rfl

/-! ## Encoding a decoded word -/

/-- Lanes from bit `lo` on are the lanes of what stands above `lo`. -/
theorem lanes_eq_div (w lo k width n : Nat) : lanes w (lo + k) width n = lanes (w / 2 ^ lo) k width n := by
  conv_lhs => rw [← Nat.mod_add_div w (2 ^ lo)]
  exact lanes_above (Nat.mod_lt _ (Nat.two_pow_pos lo)) k width n

/-- The lanes of a word of the port, packed again, are everything above its three operand bytes. -/
theorem sendLanes_lanes {c : Config} {w : Nat} (hw : w < 2 ^ c.cmdwBits) :
    sendLanes c (lanes w 27 c.laneBits c.paramCount)
      ((lanes w (27 + c.laneBits * c.paramCount) 8 c.dataLen).map (BitVec.ofNat 8)) = w / 2 ^ 27 := by
  have hparams : lanes w 27 c.laneBits c.paramCount = lanes (w / 2 ^ 27) 0 c.laneBits c.paramCount :=
    lanes_eq_div w 27 0 _ _
  have hdata : lanes w (27 + c.laneBits * c.paramCount) 8 c.dataLen
      = lanes (w / 2 ^ (27 + c.laneBits * c.paramCount)) 0 8 c.dataLen := lanes_eq_div w _ 0 _ _
  have htop : w / 2 ^ (27 + c.laneBits * c.paramCount) < 2 ^ (8 * c.dataLen) := by
    rw [Nat.div_lt_iff_lt_mul (Nat.two_pow_pos _), ← Nat.pow_add, Nat.add_comm]
    exact hw
  rw [sendLanes, map_toNat_ofNat_lanes, hparams, hdata, packLanes_lanes, packLanes_lanes, Nat.mod_eq_of_lt htop,
    Nat.pow_add, ← Nat.div_div_eq_div_mul, Nat.mod_add_div]

/-- SEND's fields are slices that leave out no bit, so they encode to the word. -/
theorem encode_send_of_word {c : Config} {w : Nat} (hw : w < 2 ^ c.cmdwBits) (hop : w % 8 = 2) :
    encode c (.send (BitVec.ofNat 8 (bits w 3 8)) (BitVec.ofNat 8 (bits w 11 8)) (BitVec.ofNat 8 (bits w 19 8))
      (lanes w 27 c.laneBits c.paramCount)
      ((lanes w (27 + c.laneBits * c.paramCount) 8 c.dataLen).map (BitVec.ofNat 8))) = w := by
  rw [encode_send, sendLanes_lanes hw]
  simp only [BitVec.toNat_ofNat, bits_eq]
  omega

/-- Settles O6: one case a row of the op table, and only SEND's encoding keeps more than the op field. -/
theorem encodeOfDecodedWord : Obligations.EncodeOfDecodedWord := by
  intro c w i h
  by_cases hwide : 2 ^ c.cmdwBits ≤ w
  · rw [decode_eq, if_pos hwide] at h
    cases h
  have hw : w < 2 ^ c.cmdwBits := Nat.lt_of_not_le hwide
  have hrows : w % 8 = 0 ∨ w % 8 = 1 ∨ w % 8 = 2 ∨ w % 8 = 3 ∨ 4 ≤ w % 8 := by omega
  rcases hrows with hop | hop | hop | hop | hop
  · rw [decode_nop hw hop] at h
    cases h
    exact ⟨rfl, by simp [hop, encode]⟩
  · rw [decode_recv hw hop] at h
    cases h
    exact ⟨rfl, by simp [hop, encode]⟩
  · rw [decode_send hw hop] at h
    cases h
    rw [if_pos hop]
    refine ⟨wellFormed_send_iff.mpr ⟨lanes_length .., ?_, fun v => lt_of_mem_lanes⟩, encode_send_of_word hw hop⟩
    rw [List.length_map, lanes_length]
  · rw [decode_hshake hw hop] at h
    cases h
    exact ⟨rfl, by simp [hop, encode]⟩
  · have hcode : (BitVec.ofNat 2 (w % 8)).toNat = w % 8 - 4 := by
      rw [BitVec.toNat_ofNat]
      omega
    rw [decode_reserved hw (BitVec.ofNat 2 (w % 8)) (by omega)] at h
    cases h
    refine ⟨rfl, ?_⟩
    rw [if_neg (by omega), encode, hcode]
    omega

/-! ## The lanes for every PARAM_LEN (R60) -/

/-- Settles O4: a lane is a slice of `8 * PARAM_LEN` bits, and its bits are the word's at the slice's place. -/
theorem sendLanesFollowParamLen : Obligations.SendLanesFollowParamLen := by
  intro c w hw hop
  refine ⟨_, _, _, _, _, decode_send hw hop, lanes_length .., ?_, fun i hi => ?_, fun j k => ?_⟩
  · rw [List.length_map, lanes_length]
  · exact ⟨lanes_getD_lt w 27 c.laneBits hi, fun k => lanes_getD_testBit w 27 hi⟩
  · exact byteLanes_getD_getLsbD w (27 + c.laneBits * c.paramCount)

end Sys2Proof
end

section
/-! PROOFS. The Packet Codec: where Serialize puts each byte (R110 to R112), what Deserialize checks and reads
(R114 to R117), that one undoes the other (R119), and what the checksum detects (R121). -/

namespace Sys2Proof.Machine

/-! ## Where Serialize puts each byte (R73, R110) -/

/-- Byte k of parameter i of a serialized packet, by its frame offset. -/
theorem envelope_getD_param (c : Config) (ptype cmd : Byte) (n : Nat) (p : List Nat) (d : List Byte)
    {i k : Nat} (hi : i < c.paramCount) (hk : k < c.paramLen) :
    (envelope c (encodePacket c ptype cmd n p d)).getD (c.paramOffset i + k) 0
      = (fieldBytes c.byteOrder c.paramLen (if i < n then p.getD i 0 else 0)).getD k 0 := by
  have hin : 2 + c.paramLen * i + k < (encodePacket c ptype cmd n p d).length := by
    have := param_index_lt hi hk
    rw [encodePacket_length, payloadSize_eq]
    omega
  rw [← encodePacket_getD_param c ptype cmd n p d hi hk, ← envelope_getD_payload c hin, paramOffset_eq, Nat.add_assoc]

/-- Data byte j of a serialized packet, by its frame offset. -/
theorem envelope_getD_data (c : Config) (ptype cmd : Byte) (n : Nat) (p : List Nat) (d : List Byte)
    {j : Nat} (hj : j < c.dataLen) :
    (envelope c (encodePacket c ptype cmd n p d)).getD (c.dataOffset j) 0
      = if ptype = c.ptMessage then d.getD j 0 else 0 := by
  have hin : 2 + c.paramLen * c.paramCount + j < (encodePacket c ptype cmd n p d).length := by
    rw [encodePacket_length, payloadSize_eq]
    omega
  rw [dataOffset_eq, envelope_getD_payload c hin, encodePacket_getD_data c ptype cmd n p d hj]

/-- The payload as the rules cut it out of a frame, `F[MAGIC_LEN..L-1)`. -/
theorem payloadOf_eq (c : Config) (f : List Byte) :
    payloadOf c f = (f.drop c.magicLen).take (c.frameSize - (c.magicLen + 1)) := by
  rw [frameSize_sub, payloadOf]

/-- The last byte of an envelope is the fold of the payload that stands in it (R111, R172). -/
theorem envelope_getD_last (c : Config) {payload : List Byte} (h : payload.length = c.payloadSize) :
    (envelope c payload).getD (c.frameSize - 1) 0
      = (((envelope c payload).drop c.magicLen).take (c.frameSize - (c.magicLen + 1))).foldl (fold c.checksum) 0 := by
  rw [envelope_getD_checksum c h, ← payloadOf_eq, payloadOf_envelope c h, checksum_eq_foldl]

/-- Settles O9: up to C parameters Serialize makes the envelope of the packet, whose bytes are read off by offset. -/
theorem serializeLayout : Obligations.SerializeLayout := by
  refine ⟨fun c ptype cmd n p d hn => ?_, fun c ptype cmd n p d hn => serialize_of_lt c ptype cmd p d hn,
    rfl, rfl, rfl, rfl, rfl, rfl, rfl⟩
  have hsize := encodePacket_length c ptype cmd n p d
  refine ⟨_, serialize_of_le c ptype cmd p d hn, envelope_length c hsize, by rw [frameSize_eq, payloadSize_eq],
    fun k => envelope_getD_magic c _, envelope_getD_ptype .., envelope_getD_cmd .., fun i k hi hk => ?_,
    fun j => envelope_getD_data c ptype cmd n p d, fun halg => ?_, fun halg => ?_⟩
  · rw [← fieldBytes_getD c.byteOrder _ hk]
    exact envelope_getD_param c ptype cmd n p d hi hk
  · rw [envelope_getD_last c hsize, halg]
    rfl
  · rw [envelope_getD_last c hsize, halg]
    rfl

/-! ## What Deserialize answers (R114 to R117) -/

theorem deserialize_badPacket {c : Config} {f : List Byte}
    (hmagic : f.take c.magicLen ≠ fieldBytes c.byteOrder c.magicLen c.magic) : deserialize c f = .badPacket := by
  rw [deserialize, if_pos hmagic]

theorem deserialize_badChecksum {c : Config} {f : List Byte}
    (hmagic : f.take c.magicLen = fieldBytes c.byteOrder c.magicLen c.magic)
    (hsum : checksum c.checksum (payloadOf c f) ≠ f.getD (c.frameSize - 1) 0) : deserialize c f = .badChecksum := by
  rw [deserialize, if_neg (not_not_intro hmagic), if_pos hsum]

theorem deserialize_ok {c : Config} {f : List Byte}
    (hmagic : f.take c.magicLen = fieldBytes c.byteOrder c.magicLen c.magic)
    (hsum : checksum c.checksum (payloadOf c f) = f.getD (c.frameSize - 1) 0) :
    deserialize c f = .ok (decodeFields c f) := by
  rw [deserialize, if_neg (not_not_intro hmagic), if_neg (not_not_intro hsum)]

/-- A frame that decodes OK passed both checks. -/
theorem checks_of_deserialize_ok {c : Config} {f : List Byte} {pkt : Packet} (h : deserialize c f = .ok pkt) :
    f.take c.magicLen = fieldBytes c.byteOrder c.magicLen c.magic ∧
      checksum c.checksum (payloadOf c f) = f.getD (c.frameSize - 1) 0 := by
  by_cases hmagic : f.take c.magicLen = fieldBytes c.byteOrder c.magicLen c.magic
  · by_cases hsum : checksum c.checksum (payloadOf c f) = f.getD (c.frameSize - 1) 0
    · exact ⟨hmagic, hsum⟩
    · rw [deserialize_badChecksum hmagic hsum] at h
      cases h
  · rw [deserialize_badPacket hmagic] at h
    cases h

/-! ## The fields Deserialize reads (R117) -/

@[simp] theorem decodeFields_params_length (c : Config) (f : List Byte) :
    (decodeFields c f).params.length = c.paramCount := by
  simp [decodeFields]

@[simp] theorem decodeFields_data_length (c : Config) (f : List Byte) : (decodeFields c f).data.length = c.dataLen := by
  simp [decodeFields]

theorem decodeFields_params_getD (c : Config) (f : List Byte) {i : Nat} (hi : i < c.paramCount) :
    (decodeFields c f).params.getD i 0 = paramAt c f i := by
  simp [decodeFields, List.getD, hi]

theorem decodeFields_data_getD (c : Config) (f : List Byte) {j : Nat} (hj : j < c.dataLen) :
    (decodeFields c f).data.getD j 0 = f.getD (c.dataOffset j) 0 := by
  simp [decodeFields, List.getD, hj]

/-- The value of four little-endian bytes is fixed by its four digits. -/
theorem eq_of_four_digits {v b0 b1 b2 b3 : Nat} (hv : v < 256 ^ 4) (h0 : v / 256 ^ 0 % 256 = b0)
    (h1 : v / 256 ^ 1 % 256 = b1) (h2 : v / 256 ^ 2 % 256 = b2) (h3 : v / 256 ^ 3 % 256 = b3) :
    v = b0 + 256 * b1 + 65536 * b2 + 16777216 * b3 := by
  omega

/-- Parameter i of a frame with the lengths and the order of R43 is `unle32(F[6+4*i .. 10+4*i))` (R117). -/
theorem paramAt_of_four_bytes {c : Config} {f : List Byte} (hf : f.length = c.frameSize) (hmagic : c.magicLen = 4)
    (hlen : c.paramLen = 4) (horder : c.byteOrder = .little) {i : Nat} (hi : i < c.paramCount) :
    paramAt c f i = (f.getD (6 + 4 * i) 0).toNat + 256 * (f.getD (7 + 4 * i) 0).toNat
      + 65536 * (f.getD (8 + 4 * i) 0).toNat + 16777216 * (f.getD (9 + 4 * i) 0).toNat := by
  have hdigit : ∀ k, k < 4 → paramAt c f i / 256 ^ k % 256 = (f.getD (6 + k + 4 * i) 0).toNat := by
    intro k hk
    have h := paramAt_digit c hf hi (hlen.symm ▸ hk)
    rwa [if_pos horder, Config.paramOffset, hmagic, hlen, Nat.add_right_comm] at h
  exact eq_of_four_digits (hlen ▸ paramAt_lt c f i) (hdigit 0 (by decide)) (hdigit 1 (by decide))
    (hdigit 2 (by decide)) (hdigit 3 (by decide))

/-- One step of either checksum, as R111 and R172 write them. -/
theorem fold_eq_rule (alg : ChecksumAlg) :
    fold alg = fun a b => match alg with | .xorFold => a ^^^ b | .byteSum => a + b := by
  cases alg <;> rfl

/-- Settles O11: the two checks in their order, and then every field from its offset. -/
theorem deserializeByRule : Obligations.DeserializeByRule := by
  intro c f hf
  have hin : c.magicLen ≤ f.length := by
    rw [hf, frameSize_eq]
    omega
  have hmagic := take_eq_fieldBytes c.byteOrder hin c.magic
  have hfold : ((f.drop c.magicLen).take (c.frameSize - (c.magicLen + 1))).foldl (fold c.checksum) 0
      = checksum c.checksum (payloadOf c f) := by
    rw [checksum_eq_foldl, payloadOf_eq]
  rw [fold_eq_rule] at hfold
  refine ⟨fun ⟨k, hk, hne⟩ => deserialize_badPacket fun heq => hne (hmagic.mp heq k hk), fun hgood => ⟨fun hsum => ?_,
    fun hsum => ?_⟩⟩
  · exact deserialize_badChecksum (hmagic.mpr hgood) fun heq => hsum (hfold.trans heq)
  · refine ⟨_, deserialize_ok (hmagic.mpr hgood) (hfold.symm.trans hsum), rfl, rfl, decodeFields_params_length c f,
      decodeFields_data_length c f, fun i hi => ?_, fun h4 hlen horder i hi => ?_,
      fun j hj => decodeFields_data_getD c f hj⟩
    · rw [decodeFields_params_getD c f hi]
      exact ⟨paramAt_lt c f i, fun k hk => paramAt_digit c hf hi hk⟩
    · rw [decodeFields_params_getD c f hi]
      exact paramAt_of_four_bytes hf h4 hlen horder hi

/-- Settles O12: each check has its verdict, and past both the packet has all its fields. -/
theorem singleVerdict : Obligations.SingleVerdict := by
  intro c f _
  by_cases hmagic : f.take c.magicLen = fieldBytes c.byteOrder c.magicLen c.magic
  · by_cases hsum : checksum c.checksum (payloadOf c f) = f.getD (c.frameSize - 1) 0
    · exact .inr (.inr ⟨_, deserialize_ok hmagic hsum, decodeFields_params_length c f, decodeFields_data_length c f⟩)
    · exact .inr (.inl (deserialize_badChecksum hmagic hsum))
  · exact .inl (deserialize_badPacket hmagic)

/-! ## Deserialize undoes Serialize (R119) -/

theorem paddedParam_lt {c : Config} {n : Nat} {p : List Nat} (hfit : ∀ v ∈ p, v < 256 ^ c.paramLen) (i : Nat) :
    (if i < n then p.getD i 0 else 0) < 256 ^ c.paramLen := by
  have hzero : 0 < 256 ^ c.paramLen := Nat.pow_pos (by decide)
  split
  · rw [List.getD_eq_getElem?_getD]
    cases hget : p[i]? with
    | none => exact hzero
    | some v => exact hfit v (List.mem_of_getElem? hget)
  · exact hzero

/-- Parameter i of a serialized packet reads back. -/
theorem paramAt_envelope (c : Config) (ptype cmd : Byte) (n : Nat) {p : List Nat} (d : List Byte)
    (hfit : ∀ v ∈ p, v < 256 ^ c.paramLen) {i : Nat} (hi : i < c.paramCount) :
    paramAt c (envelope c (encodePacket c ptype cmd n p d)) i = if i < n then p.getD i 0 else 0 := by
  have hend : c.paramLen * i + c.paramLen ≤ c.paramLen * c.paramCount := Nat.mul_le_mul_left c.paramLen hi
  have hslice : ((envelope c (encodePacket c ptype cmd n p d)).drop (c.paramOffset i)).take c.paramLen
      = fieldBytes c.byteOrder c.paramLen (if i < n then p.getD i 0 else 0) := by
    refine (take_eq_fieldBytes _ ?_ _).mpr fun k hk => ?_
    · rw [List.length_drop, envelope_length c (encodePacket_length ..), frameSize_eq, payloadSize_eq, paramOffset_eq]
      omega
    · rw [← fieldBytes_getD c.byteOrder _ hk, ← envelope_getD_param c ptype cmd n p d hi hk]
      simp [List.getD, List.getElem?_drop]
  rw [paramAt, hslice, fieldValue_fieldBytes _ (paddedParam_lt hfit i)]

/-- Zero-padded to C lanes, the first n parameters are those of the packet (R110). -/
theorem take_append_replicate_getD {n C : Nat} {p : List Nat} (hn : n ≤ C) (hp : p.length = C) (i : Nat) :
    (p.take n ++ List.replicate (C - n) 0).getD i 0 = if i < n then p.getD i 0 else 0 := by
  simp only [List.getD]
  by_cases hi : i < n
  · rw [List.getElem?_append_left (by rw [List.length_take]; omega), List.getElem?_take_of_lt hi, if_pos hi]
  · rw [List.getElem?_append_right (by rw [List.length_take]; omega), if_neg hi, List.getElem?_replicate]
    split <;> rfl

/-- Two lists of one length are equal when they read the same at every index. -/
theorem eq_of_getD {α : Type} {z : α} {l l' : List α} {n : Nat} (hl : l.length = n) (hl' : l'.length = n)
    (h : ∀ i, i < n → l.getD i z = l'.getD i z) : l = l' := by
  refine List.ext_getElem (hl.trans hl'.symm) fun i hi hi' => ?_
  rw [← List.getD_eq_getElem l z hi, ← List.getD_eq_getElem l' z hi', h i (hl ▸ hi)]

theorem decodeFields_params_encodePacket (c : Config) (ptype cmd : Byte) {n : Nat} {p : List Nat} (d : List Byte)
    (hn : n ≤ c.paramCount) (hp : p.length = c.paramCount) (hfit : ∀ v ∈ p, v < 256 ^ c.paramLen) :
    (decodeFields c (envelope c (encodePacket c ptype cmd n p d))).params
      = p.take n ++ List.replicate (c.paramCount - n) 0 := by
  refine eq_of_getD (z := 0) (decodeFields_params_length c _) ?_ fun i hi => ?_
  · rw [List.length_append, List.length_take, List.length_replicate]
    omega
  · rw [decodeFields_params_getD c _ hi, paramAt_envelope c ptype cmd n d hfit hi, take_append_replicate_getD hn hp]

theorem decodeFields_data_encodePacket (c : Config) (ptype cmd : Byte) (n : Nat) (p : List Nat) {d : List Byte}
    (hd : d.length = c.dataLen) :
    (decodeFields c (envelope c (encodePacket c ptype cmd n p d))).data
      = if ptype = c.ptMessage then d else List.replicate c.dataLen 0x00 := by
  refine eq_of_getD (z := 0) (decodeFields_data_length c _) (by split <;> simp [hd]) fun j hj => ?_
  rw [decodeFields_data_getD c _ hj, envelope_getD_data c ptype cmd n p d hj]
  split
  · rfl
  · simp [List.getD, hj]

/-- Settles O13: Deserialize accepts every envelope, and reads back the field that Serialize put at each offset. -/
theorem serializeRoundTrip : Obligations.SerializeRoundTrip := by
  intro c ptype cmd n p d hn hp hfit hd
  refine ⟨_, serialize_of_le c ptype cmd p d hn, ?_⟩
  rw [deserialize_envelope c (encodePacket_length ..), ← decodeFields_params_encodePacket c ptype cmd d hn hp hfit,
    ← decodeFields_data_encodePacket c ptype cmd n p hd]
  congr 1
  exact congrArg₂ (Packet.mk · · _ _) (envelope_getD_ptype ..) (envelope_getD_cmd ..)

/-! ## What the checksum detects (R121) -/

/-- Serialize answers a frame only as an envelope of L bytes. -/
theorem eq_envelope_of_serialize {c : Config} {ptype cmd : Byte} {n : Nat} {p : List Nat} {d f : List Byte}
    (h : serialize c ptype cmd n p d = .ok f) : f = envelope c (encodePacket c ptype cmd n p d) := by
  rcases serialize_cases c ptype cmd n p d with ⟨-, he⟩ | ⟨-, he⟩
  · rw [he] at h
    cases h
  · exact (Except.ok.inj (he.symm.trans h)).symm

theorem getD_set_self {f : List Byte} {k : Nat} (hk : k < f.length) (b : Byte) : (f.set k b).getD k 0 = b := by
  simp [List.getD, hk]

theorem getD_take (f : List Byte) {n k : Nat} (hk : k < n) : (f.take n).getD k 0 = f.getD k 0 := by
  simp [List.getD, hk]

/-- A changed byte inside the magic is seen by the magic check. -/
theorem deserialize_set_magic {c : Config} {f : List Byte} {k : Nat} {b : Byte} (hf : f.length = c.frameSize)
    (hmagic : f.take c.magicLen = fieldBytes c.byteOrder c.magicLen c.magic) (hk : k < c.magicLen)
    (hb : b ≠ f.getD k 0) : deserialize c (f.set k b) = .badPacket := by
  refine deserialize_badPacket fun hset => hb ?_
  have hin : k < f.length := by
    rw [hf, frameSize_eq]
    omega
  calc b = (f.set k b).getD k 0 := (getD_set_self hin b).symm
    _ = ((f.set k b).take c.magicLen).getD k 0 := (getD_take _ hk).symm
    _ = (f.take c.magicLen).getD k 0 := by rw [hset, hmagic]
    _ = f.getD k 0 := getD_take f hk

/-- A changed byte outside the magic is seen by the checksum check: it changes either the payload's checksum or the
byte that is compared with it. -/
theorem deserialize_set_payload {c : Config} {f : List Byte} {k : Nat} {b : Byte} (hf : f.length = c.frameSize)
    (hmagic : f.take c.magicLen = fieldBytes c.byteOrder c.magicLen c.magic)
    (hsum : checksum c.checksum (payloadOf c f) = f.getD (c.frameSize - 1) 0) (hlow : c.magicLen ≤ k)
    (hk : k < c.frameSize) (hb : b ≠ f.getD k 0) : deserialize c (f.set k b) = .badChecksum := by
  have hsize := frameSize_eq c
  have htake : (f.set k b).take c.magicLen = fieldBytes c.byteOrder c.magicLen c.magic := by
    rw [List.take_set_of_le hlow, hmagic]
  refine deserialize_badChecksum htake fun heq => hb ?_
  by_cases hlast : k = c.frameSize - 1
  · have hpayload : payloadOf c (f.set k b) = payloadOf c f := by
      rw [payloadOf, List.drop_set, if_neg (by omega), List.take_set_of_le (by omega), payloadOf]
    rw [hpayload, hsum, hlast, getD_set_self (by omega)] at heq
    rw [hlast, heq]
  · have hpayload : payloadOf c (f.set k b) = (payloadOf c f).set (k - c.magicLen) b := by
      rw [payloadOf, List.drop_set, if_neg (by omega), List.take_set, payloadOf]
    have hsame : (f.set k b).getD (c.frameSize - 1) 0 = f.getD (c.frameSize - 1) 0 := by
      simp [List.getD, List.getElem?_set_ne hlast]
    have hin : k - c.magicLen < (payloadOf c f).length := by
      rw [payloadOf, List.length_take, List.length_drop]
      omega
    rw [hpayload, hsame, ← hsum, checksum_set _ _ hin, payloadOf, getD_drop_take f _ (by omega)] at heq
    rw [heq, Nat.add_sub_cancel' hlow]

/-- Settles O14: a serialized frame passes both checks, and the check over the changed byte then fails. -/
theorem singleByteCorruptionDetected : Obligations.SingleByteCorruptionDetected := by
  intro c ptype cmd n p d f k b h hk hb
  obtain rfl := eq_envelope_of_serialize h
  have hsize := encodePacket_length c ptype cmd n p d
  have hf := envelope_length c hsize
  obtain ⟨hmagic, hsum⟩ := checks_of_deserialize_ok (deserialize_envelope c hsize)
  by_cases hlow : k < c.magicLen
  · rw [if_pos hlow]
    exact deserialize_set_magic hf hmagic hlow hb
  · rw [if_neg hlow]
    exact deserialize_set_payload hf hmagic hsum (Nat.le_of_not_lt hlow) hk hb

/-- Settles O15: both checks see the two frames alike, the second because the checksum ignores byte positions. -/
theorem payloadPermutationUndetected : Obligations.PayloadPermutationUndetected := by
  intro c f g pkt _ _ hok htake hlast hperm
  obtain ⟨hmagic, hsum⟩ := checks_of_deserialize_ok hok
  rw [← payloadOf_eq, ← payloadOf_eq] at hperm
  exact ⟨_, deserialize_ok (htake.trans hmagic) (by rw [← checksum_perm _ hperm, hsum, hlast])⟩

end Sys2Proof.Machine
end

section
/-! PROOFS. The assembler (R78): what a line assembles to, and the command words that 95_test_vectors.md writes out. -/

namespace Sys2Proof.Machine

/-! ## The SEND line -/

theorem assembleSend_paramListTooLong (c : Config) (ptype cmd : Byte) {params : List Nat} (data : List Byte)
    (hlong : 255 < params.length) : assembleSend c ptype cmd params data = .error .paramListTooLong := by
  rw [assembleSend, if_pos hlong]

theorem assembleSend_dataTooLong (c : Config) (ptype cmd : Byte) {params : List Nat} {data : List Byte}
    (hcount : params.length ≤ 255) (hlong : c.dataLen < data.length) :
    assembleSend c ptype cmd params data = .error .dataTooLong := by
  rw [assembleSend, if_neg (by omega), if_pos hlong]

/-- The C parameter lanes of a SEND line. -/
def assembledLanes (c : Config) (params : List Nat) : List Nat := (List.range c.paramCount).map fun i => params.getD i 0

/-- The D data bytes of a SEND line. -/
def assembledData (c : Config) (data : List Byte) : List Byte := (List.range c.dataLen).map fun j => data.getD j 0

theorem assembleSend_ok (c : Config) (ptype cmd : Byte) {params : List Nat} {data : List Byte}
    (hcount : params.length ≤ 255) (hlen : data.length ≤ c.dataLen) :
    assembleSend c ptype cmd params data = .ok (.send ptype cmd (BitVec.ofNat 8 params.length)
      (assembledLanes c params) (assembledData c data)) := by
  rw [assembleSend, if_neg (by omega), if_neg (by omega), assembledLanes, assembledData]

theorem assembledLanes_getD (c : Config) (params : List Nat) {i : Nat} (hi : i < c.paramCount) :
    (assembledLanes c params).getD i 0 = params.getD i 0 := by
  simp [assembledLanes, List.getD, hi]

/-- A lane holds a listed value or 0, so it fits when the listed values do. -/
theorem assembledLanes_fit {c : Config} {params : List Nat} (hfit : ∀ v ∈ params, v < 2 ^ c.laneBits) :
    ∀ v ∈ assembledLanes c params, v < 2 ^ c.laneBits := by
  intro v hv
  obtain ⟨i, -, rfl⟩ := List.mem_map.mp hv
  rw [List.getD_eq_getElem?_getD]
  cases hget : params[i]? with
  | none => exact Nat.two_pow_pos _
  | some v => exact hfit v (List.mem_of_getElem? hget)

/-- The data bytes are the listed ones, padded with zeros to D. -/
theorem assembledData_eq {c : Config} {data : List Byte} (hlen : data.length ≤ c.dataLen) :
    assembledData c data = data ++ List.replicate (c.dataLen - data.length) 0 := by
  apply List.ext_getElem
  · simp [assembledData, hlen]
  · intro j _ _
    by_cases hj : j < data.length
    · simp [assembledData, List.getD, hj]
    · simp [assembledData, List.getD, List.getElem_append, hj]

/-- The operation of a SEND line is one the port can carry. -/
theorem assembleSend_wellFormed {c : Config} (ptype cmd : Byte) {params : List Nat} (data : List Byte)
    (hfit : ∀ v ∈ params, v < 2 ^ c.laneBits) :
    (Instr.send ptype cmd (BitVec.ofNat 8 params.length) (assembledLanes c params)
      (assembledData c data)).wellFormed c = true :=
  wellFormed_send_iff.mpr ⟨by simp [assembledLanes], by simp [assembledData], assembledLanes_fit hfit⟩

/-- The bytes written beside an op are those its cycle receives (R66). -/
theorem received_withStimulus (c : Config) (op : Instr) (rx : List Byte) (cancel rst : Bool) :
    received (withStimulus c op rx cancel rst) = rx := by
  apply List.ext_getElem
  · rw [received_length, withStimulus]
  · intro j _ hj
    simp [received, withStimulus, List.getD, hj]

/-- Settles O8: the three answers for a SEND line, of which MSG is one, and the lines that stand for themselves. -/
theorem assembledSend : Obligations.AssembledSend := by
  refine ⟨fun c ptype cmd params data => ⟨fun hlong => ?_, fun hcount hlong => ?_, fun hcount hlen hfit => ?_⟩,
    fun _ _ => rfl, fun c n => ⟨_, rfl, List.length_replicate, fun op => List.eq_of_mem_replicate⟩,
    fun _ => ⟨rfl, rfl, rfl⟩, fun c op rx cancel rst => ⟨rfl, received_withStimulus c op rx cancel rst, rfl, rfl⟩⟩
  · rw [assemble, assembleSend_paramListTooLong c ptype cmd data hlong]
    rfl
  · rw [assemble, assembleSend_dataTooLong c ptype cmd hcount hlong]
    rfl
  · refine ⟨_, _, _, by rw [assemble, assembleSend_ok c ptype cmd hcount hlen]; rfl,
      assembleSend_wellFormed ptype cmd data hfit, ?_, fun i hi _ => assembledLanes_getD c params hi,
      fun i hi hpast => ?_, assembledData_eq hlen⟩
    · rw [BitVec.toNat_ofNat]
      omega
    · rw [assembledLanes_getD c params hi, List.getD_eq_default _ _ hpast]

/-! ## The words written out -/

/-- Settles O1: each word is the encoding of its operation. -/
theorem specWordsDecode : Obligations.SpecWordsDecode := by
  have hword : ∀ (w : Nat) (i : Instr), encode Config.standard i = w → i.wellFormed Config.standard = true →
      i.presentedOp = i → decode Config.standard w = .ok i := by
    intro w i hw hwf hop
    rw [← hw, decode_encode hwf, hop]
  refine ⟨hword _ _ ?_ ?_ rfl, hword _ _ ?_ ?_ rfl, hword _ _ ?_ ?_ rfl, hword _ _ ?_ ?_ rfl, hword _ _ ?_ ?_ rfl,
    hword _ _ ?_ ?_ rfl, hword _ _ ?_ ?_ rfl, hword _ _ ?_ ?_ rfl⟩
  all_goals decide +kernel

end Sys2Proof.Machine
end

section
/-! PROOFS. The output pins (R68 to R72, R171): a channel that is not valid drives zeros, a valid one its event. -/

namespace Sys2Proof.Machine

/-- Only a RECV_DONE with verdict OK delivers a packet (R70, R71). -/
theorem deliveredPacket_eq_zeroPacket (c : Config) {cpl : Option Completion}
    (h : ∀ pkt, cpl ≠ some (.recvDone (.ok pkt))) : deliveredPacket c cpl = zeroPacket c := by
  unfold deliveredPacket
  split
  · exact absurd rfl (h _)
  · rfl

/-- Only an HS_DONE that observed a type shows one (R71). -/
theorem handshakeFields_observed_eq_none {cpl : Option Completion}
    (h : ∀ v e r b, cpl ≠ some (.hsDone v e r (some b))) : (handshakeFields cpl).2.2 = none := by
  cases cpl with
  | none => rfl
  | some event =>
    cases event with
    | recvDone r => rfl
    | hsDone v e r observed =>
      cases observed with
      | none => rfl
      | some b => exact absurd rfl (h v e r b)

/-- Settles O56: an absent event gives each pin its zero, and the packet pins and the observed type theirs. -/
theorem invalidChannelsDriveZero : Obligations.InvalidChannelsDriveZero := by
  intro c o
  refine ⟨fun h => ?_, fun h => ?_, fun h => ?_, fun h => ?_, fun h => ?_⟩
  · simp [Outputs.pins, h]
  · simp [Outputs.pins, h]
  · simp [Outputs.pins, h, handshakeFields]
  · simp [Outputs.pins, deliveredPacket_eq_zeroPacket c h, zeroPacket]
  · simp [Outputs.pins, handshakeFields_observed_eq_none h]

/-- Settles O57: each pin reads its own part of the event that its channel carries. -/
theorem validChannelsDrive : Obligations.ValidChannelsDrive := by
  intro c o
  refine ⟨fun a h => ?_, fun f h => ?_, fun pkt h => ?_, fun h => ?_, fun h => ?_, fun h => ?_,
    fun v established reason observed h => ?_, rfl, rfl, rfl, rfl, rfl⟩
  · simp [Outputs.pins, h]
  · simp [Outputs.pins, h]
  · simp [Outputs.pins, h, Completion.kindCode, Completion.verdictCode, deliveredPacket]
  · simp [Outputs.pins, h, Completion.kindCode, Completion.verdictCode]
  · simp [Outputs.pins, h, Completion.kindCode, Completion.verdictCode]
  · simp [Outputs.pins, h, Completion.kindCode, Completion.verdictCode]
  · simp only [Outputs.pins, h, Option.isSome_some, Option.map_some, Option.getD_some, Completion.kindCode,
      Completion.verdictCode, handshakeFields, true_and]
    intro ptype hobs
    rw [hobs, Option.getD_some]

end Sys2Proof.Machine
end

section
/-! PROOFS. The idle cycles (R164 to R166, R90, R120, R140, R142): with no byte delivered, each is its op phase over
the opening of the cycle. -/

namespace Sys2Proof.Machine

/-! ## The opening of an idle cycle -/

/-- An idle cycle requests no byte and opens with the default outputs of an idle block (R171, R208). -/
theorem State.openCycle_out_idle {s : State} (hf : s.faState = .idle) (cancelIn : Bool) :
    (s.openCycle cancelIn).out =
      { ack := none, tx := none, cpl := none, rxReqMax := 0, stBusy := false,
        stHs := s.hsState, stCancelled := s.cancelQ, stFill := s.fill } := by
  have hreq : s.request cancelIn = 0 := by simp [State.request, State.busy, hf]
  simp [State.openCycle, State.setReq, State.setCancel, State.beginCycle, State.defaultOutputs, hreq, hf]

theorem State.setAck_out (t : State) (v : AckCode) : (t.setAck v).out = { t.out with ack := some v } := rfl

theorem State.setTx_out (t : State) (v : List Byte) : (t.setTx v).out = { t.out with tx := some v } := rfl

/-! ## The op phase of an accepted op -/

/-- RECV begins a receive (R90). -/
theorem opPhase_recv_idle {s : State} (hf : s.faState = .idle) (t : State) :
    opPhase .recv s t = (startReceive t).setAck .started := by
  simp [opPhase, unlessBusy, State.busy_eq_false.mpr hf, recvBody]

/-- SEND transmits the frame Serialize makes (R120). -/
theorem opPhase_send_of_le {s : State} (hf : s.faState = .idle) (ptype cmd : Byte) {nparams : Byte}
    (params : List Nat) (data : List Byte) (hn : nparams.toNat ≤ s.cfg.paramCount) (t : State) :
    opPhase (.send ptype cmd nparams params data) s t
      = (t.setTx (envelope s.cfg (encodePacket s.cfg ptype cmd nparams.toNat params data))).setAck .sent := by
  rw [opPhase_send_idle hf, sendBody, serialize_of_le s.cfg ptype cmd params data hn]

/-- SEND with too many parameters raises its error (R113). -/
theorem opPhase_send_of_lt {s : State} (hf : s.faState = .idle) (ptype cmd : Byte) {nparams : Byte}
    (params : List Nat) (data : List Byte) (hn : s.cfg.paramCount < nparams.toNat) (t : State) :
    opPhase (.send ptype cmd nparams params data) s t = t.setAck .errParamCount := by
  rw [opPhase_send_idle hf, sendBody_of_lt ptype cmd params data hn]

/-- HSHAKE outside ESTABLISHED sends HELLO and begins the receive of the reply (R140). -/
theorem opPhase_hshake_starts {s : State} (hf : s.faState = .idle) (hs : s.hsState ≠ .established) (t : State) :
    opPhase .hshake s t = ((startReceive (t.setTx (helloFrame s.cfg))).setHs .awaiting).setAck .started := by
  simp [opPhase, unlessBusy, State.busy_eq_false.mpr hf, hshakeBody, hs]

/-- HSHAKE in ESTABLISHED raises its error (R142). -/
theorem opPhase_hshake_established {s : State} (hf : s.faState = .idle) (hs : s.hsState = .established) (t : State) :
    opPhase .hshake s t = t.setAck .errState := by
  simp [opPhase, unlessBusy, State.busy_eq_false.mpr hf, hshakeBody, hs]

/-! ## The idle cycles -/

/-- Settles O21: CANCEL's op phase is `skip`, and its pin is 1. -/
theorem cancelWhileIdle : Obligations.CancelWhileIdle := fun s hf h0 =>
  ⟨_, exec_idle (by simp) hf h0, Bool.or_true _, rfl, rfl, rfl, rfl, ⟨rfl, rfl, rfl⟩, State.openCycle_out_idle hf true⟩

/-- Settles O23: NOP's op phase is `skip`. -/
theorem nopWhileIdle : Obligations.NopWhileIdle := fun s hf h0 =>
  ⟨_, exec_idle (by simp) hf h0, rfl, rfl, rfl, rfl, rfl, ⟨rfl, rfl, rfl⟩, State.openCycle_out_idle hf _⟩

/-- Settles O24: a reserved op's phase is the ack ERR_ILLEGAL. -/
theorem reservedWhileIdle : Obligations.ReservedWhileIdle := by
  intro code s hf h0
  refine ⟨_, exec_idle (by simp) hf h0, rfl, rfl, rfl, rfl, rfl, ⟨rfl, rfl, rfl⟩, ?_⟩
  rw [opPhase, reservedBody, State.raise_eq, State.setAck_out, State.openCycle_out_idle hf]

/-- Settles O25: RECV's op phase starts the receive over the opening of the cycle. -/
theorem recvAccepted : Obligations.RecvAccepted := by
  intro s hf h0
  have hexec := exec_idle (i := .recv) (by simp) hf h0
  rw [opPhase_recv_idle hf] at hexec
  refine ⟨_, hexec, rfl, rfl, rfl, rfl, rfl, ⟨rfl, rfl, rfl⟩, ?_⟩
  rw [State.setAck_out, startReceive_out, State.openCycle_out_idle hf]

/-- Settles O26: SEND's op phase drives the frame and the ack, and writes nothing else. -/
theorem sendAccepted : Obligations.SendAccepted := by
  intro ptype cmd nparams params data s hf h0 hn
  have hexec := exec_idle (i := .send ptype cmd nparams params data) (by simp) hf h0
  rw [opPhase_send_of_le hf ptype cmd params data hn] at hexec
  refine ⟨_, _, hexec, serialize_of_le s.cfg ptype cmd params data hn, rfl, rfl, rfl, rfl, rfl, ⟨rfl, rfl, rfl⟩, ?_⟩
  rw [State.setAck_out, State.setTx_out, State.openCycle_out_idle hf]

/-- Settles O27: HSHAKE's op phase drives HELLO and starts the receive in AWAITING. -/
theorem hshakeAccepted : Obligations.HshakeAccepted := by
  intro s hf h0 hs
  have hexec := exec_idle (i := .hshake) (by simp) hf h0
  rw [opPhase_hshake_starts hf hs] at hexec
  refine ⟨_, hexec, rfl, rfl, rfl, rfl, rfl, ⟨rfl, rfl, rfl⟩, ?_⟩
  rw [State.setAck_out, State.setHs_out, startReceive_out, State.setTx_out, State.openCycle_out_idle hf]

/-- Settles O28: HSHAKE's op phase in ESTABLISHED is the ack ERR_STATE. -/
theorem hshakeWhileEstablished : Obligations.HshakeWhileEstablished := by
  intro s hf h0 hs
  have hexec := exec_idle (i := .hshake) (by simp) hf h0
  rw [opPhase_hshake_established hf hs] at hexec
  refine ⟨_, hexec, rfl, rfl, rfl, rfl, rfl, ⟨rfl, rfl, rfl⟩, ?_⟩
  rw [State.setAck_out, State.openCycle_out_idle hf]

/-! ## The operands SEND ignores (R64, R65) -/

theorem paddedParams_congr (c : Config) {n : Nat} {p p' : List Nat} (h : ∀ i, i < n → p.getD i 0 = p'.getD i 0) :
    paddedParams c n p = paddedParams c n p' := by
  refine List.map_congr_left fun i _ => ?_
  split
  · exact h i ‹_›
  · rfl

theorem packetData_congr (c : Config) (ptype : Byte) {d d' : List Byte}
    (h : ptype = c.ptMessage → ∀ j, j < c.dataLen → d.getD j 0 = d'.getD j 0) :
    packetData c ptype d = packetData c ptype d' := by
  refine List.map_congr_left fun j hj => ?_
  split
  · exact h ‹_› j (List.mem_range.mp hj)
  · rfl

/-- Serialize reads the first n parameters, and the data of a MESSAGE (R110). -/
theorem serialize_congr (c : Config) (ptype cmd : Byte) {n : Nat} {p p' : List Nat} {d d' : List Byte}
    (hp : ∀ i, i < n → p.getD i 0 = p'.getD i 0)
    (hd : ptype = c.ptMessage → ∀ j, j < c.dataLen → d.getD j 0 = d'.getD j 0) :
    serialize c ptype cmd n p d = serialize c ptype cmd n p' d' := by
  simp only [serialize, encodePacket, paddedParams_congr c hp, packetData_congr c ptype hd]

/-- A cycle applies its op phase to its own start state only. -/
theorem runCycle_congr {cancelIn : Bool} {phaseO phaseO' : State → State → State} {s : State}
    (h : phaseO s = phaseO' s) : runCycle cancelIn phaseO s = runCycle cancelIn phaseO' s := by
  simp only [runCycle, h]

/-- Settles O17: the operands of SEND reach its cycle through Serialize alone. -/
theorem unusedSendLanesIgnored : Obligations.UnusedSendLanesIgnored := by
  intro c ptype cmd nparams p p' d d' s hcfg hp hd
  subst hcfg
  refine runCycle_congr ?_
  funext t
  simp only [unlessBusy, sendBody, serialize_congr s.cfg ptype cmd hp hd]

end Sys2Proof.Machine
end

section
/-! PROOFS. Every way a cycle can end in a next state, said once for all operations; and when a cycle has none (R170,
R22). -/

namespace Sys2Proof.Machine

/-! ## The end of a receive, field by field (R92, R94) -/

@[simp] theorem endReceive_faState (s : State) (r : RxResult) (t : State) : (endReceive s r t).faState = .idle := by
  obtain ⟨h, -⟩ := endReceive_fields s r t
  exact h

@[simp] theorem endReceive_fill (s : State) (r : RxResult) (t : State) : (endReceive s r t).fill = 0 := by
  obtain ⟨-, h, -⟩ := endReceive_fields s r t
  exact h

@[simp] theorem endReceive_buf (s : State) (r : RxResult) (t : State) : (endReceive s r t).buf = t.buf := by
  obtain ⟨-, -, h, -⟩ := endReceive_fields s r t
  exact h

@[simp] theorem endReceive_cfg (s : State) (r : RxResult) (t : State) : (endReceive s r t).cfg = t.cfg := by
  obtain ⟨-, -, -, -, h, -⟩ := endReceive_fields s r t
  exact h

@[simp] theorem endReceive_stimulus (s : State) (r : RxResult) (t : State) :
    (endReceive s r t).stimulus = t.stimulus := by
  obtain ⟨-, -, -, -, -, h, -⟩ := endReceive_fields s r t
  exact h

@[simp] theorem endReceive_out_tx (s : State) (r : RxResult) (t : State) :
    (endReceive s r t).out.tx = t.out.tx := by
  obtain ⟨-, h, -⟩ := endReceive_outputs s r t
  exact h

/-- The end of a receive leaves the session outside AWAITING, and inside it ends the handshake one way or the other. -/
theorem endReceive_session {s t u : State} {r : RxResult} (hu : u = endReceive s r t) (hs : t.hsState = s.hsState) :
    (s.hsState ≠ .awaiting ∧ u.hsState = s.hsState) ∨
    (s.hsState = .awaiting ∧ u.hsState = .established ∧
      u.out.cpl = some (.hsDone .ok true .none (some s.cfg.ptResponse))) ∨
    (s.hsState = .awaiting ∧ u.hsState = .failed ∧
      ∃ v reason observed, u.out.cpl = some (.hsDone v false reason observed)) := by
  subst hu
  obtain ⟨hw, h⟩ | ⟨hw, pkt, -, htype, -, h⟩ | ⟨hw, _, _, h⟩ := finish_cases s r ((t.setFa .idle).setFill 0)
  · exact .inl ⟨hw, by simp [endReceive, h, hs]⟩
  · exact .inr (.inl ⟨hw, by simp [endReceive, h], by simp [endReceive, h, htype]⟩)
  · exact .inr (.inr ⟨hw, by simp [endReceive, h], _, _, _, by rw [endReceive, h]; rfl⟩)

/-- No receive leaves a handshake waiting for its reply (R144 to R146). -/
theorem endReceive_hsState_ne_awaiting {s t u : State} {r : RxResult} (hu : u = endReceive s r t)
    (hs : t.hsState = s.hsState) : u.hsState ≠ .awaiting := by
  rcases endReceive_session hu hs with ⟨hw, h⟩ | ⟨-, h, -⟩ | ⟨-, h, -⟩
  · rwa [h]
  · simp [h]
  · simp [h]

/-! ## The outcomes of a cycle -/

/-- The next states of the cycle of `i` from `s`: the reset cycle, three outcomes of an idle block and three of a busy
one (R160 to R168). -/
inductive CycleOutcome (i : Instr) (s : State) : State → Prop where
  /-- The reset cycle (R161). -/
  | reset (hi : i = .rst) : CycleOutcome i s s.beginCycle.resetBlock
  /-- An idle cycle that starts nothing: at most an ack and a transmitted frame. -/
  | idleKept (hi : i ≠ .rst) (hf : s.faState = .idle) (a : Option AckCode) (tx : Option (List Byte))
      (ha : a ≠ some .started) :
      CycleOutcome i s { s.openCycle (s.cancelPin i) with
        out := { (s.openCycle (s.cancelPin i)).out with ack := a, tx := tx } }
  /-- An accepted RECV (R90). -/
  | recvStarted (hi : i = .recv) (hf : s.faState = .idle) :
      CycleOutcome i s ((startReceive (s.openCycle (s.cancelPin i))).setAck .started)
  /-- An accepted HSHAKE (R140). -/
  | hshakeStarted (hi : i = .hshake) (hf : s.faState = .idle) (hs : s.hsState ≠ .established) :
      CycleOutcome i s (((startReceive ((s.openCycle (s.cancelPin i)).setTx (helloFrame s.cfg))).setHs
        .awaiting).setAck .started)
  /-- A cancelled poll, with at most a rejecting ack beside it (R92). -/
  | cancelled (hi : i ≠ .rst) (hf : s.faState = .active) (hc : s.cancelEff (s.cancelPin i) = true) (t : State)
      (ht : t = endReceive s .cancelled (s.openCycle (s.cancelPin i))) (a : Option AckCode)
      (ha : a = none ∨ a = some .errBusy ∨ a = some .errIllegal) :
      CycleOutcome i s { t with out := { t.out with ack := a } }
  /-- A poll that fills the frame, with at most a rejecting ack beside it (R94). -/
  | completed (hi : i ≠ .rst) (hrd : s.Reads i) (hL : s.fill + s.input.rxCount = s.cfg.frameSize) (t : State)
      (ht : t = endReceive s (deserialize s.cfg s.frameAfterAppend)
        ((s.openCycle (s.cancelPin i)).setBuf (s.buf.write s.fill s.chunk))) (a : Option AckCode)
      (ha : a = none ∨ a = some .errBusy ∨ a = some .errIllegal) :
      CycleOutcome i s { t with out := { t.out with ack := a } }
  /-- A poll that does not fill the frame, with at most a rejecting ack beside it (R93). -/
  | appended (hi : i ≠ .rst) (hrd : s.Reads i) (hlt : s.fill + s.input.rxCount < s.cfg.frameSize) (t : State)
      (ht : t = ((s.openCycle (s.cancelPin i)).setBuf (s.buf.write s.fill s.chunk)).setFill (s.fill + s.input.rxCount))
      (a : Option AckCode) (ha : a = none ∨ a = some .errBusy ∨ a = some .errIllegal) :
      CycleOutcome i s { t with out := { t.out with ack := a } }

/-- The op phase of an idle cycle starts a receive or keeps the block. -/
theorem opPhase_idle_outcome {i : Instr} (hi : i ≠ .rst) {s : State} (hf : s.faState = .idle) :
    CycleOutcome i s (opPhase i s (s.openCycle (s.cancelPin i))) := by
  cases i with
  | nop => exact .idleKept hi hf none none (by simp)
  | recv =>
    rw [opPhase_recv_idle hf]
    exact .recvStarted rfl hf
  | send ptype cmd nparams params data =>
    by_cases hn : s.cfg.paramCount < nparams.toNat
    · rw [opPhase_send_of_lt hf ptype cmd params data hn]
      exact .idleKept hi hf (some .errParamCount) none (by simp)
    · rw [opPhase_send_of_le hf ptype cmd params data (Nat.le_of_not_lt hn)]
      exact .idleKept hi hf (some .sent) (some _) (by simp)
  | hshake =>
    by_cases hs : s.hsState = .established
    · rw [opPhase_hshake_established hf hs]
      exact .idleKept hi hf (some .errState) none (by simp)
    · rw [opPhase_hshake_starts hf hs]
      exact .hshakeStarted rfl hf hs
  | reserved code => exact .idleKept hi hf (some .errIllegal) none (by simp)
  | rst => exact absurd rfl hi
  | cancel => exact .idleKept hi hf none none (by simp)

/-- A cycle that answers a next state ended in one of the outcomes. -/
theorem exec_outcome {i : Instr} {s t : State} (h : exec i s = .next t) : CycleOutcome i s t := by
  by_cases hi : i = .rst
  · subst hi
    obtain ⟨-, rfl⟩ := resetCycle_cases (exec_rst s ▸ h)
    exact .reset rfl
  · cases hf : s.faState with
    | idle =>
      obtain ⟨-, rfl⟩ := exec_idle_cases hi hf h
      exact opPhase_idle_outcome hi hf
    | active =>
      obtain ⟨a, t0, rfl, ha, -, ⟨hc, ht⟩ | ⟨hrd, -, hL, ht⟩ | ⟨hrd, -, hlt, ht⟩⟩ := exec_busy_cases hi hf h
      · exact .cancelled hi hf hc t0 ht a ha
      · exact .completed hi hrd hL t0 ht a ha
      · exact .appended hi hrd hlt t0 ht a ha

/-! ## The cycles without a next state -/

/-- A cycle with `rst = 0` is refused exactly when the transport delivers more than was requested (R170). -/
theorem runCycle_refused_iff {cancelIn : Bool} {phaseO : State → State → State} {s : State} {r : Refusal} :
    runCycle cancelIn phaseO s = .refused r ↔ r = .rxOverrun ∧ s.request cancelIn < s.input.rxCount := by
  constructor
  · intro h
    unfold runCycle at h
    split at h
    · rename_i ho
      cases h
      exact ⟨rfl, by simpa [State.overrun] using ho⟩
    · split at h
      · cases h
      · cases h
      · exact absurd ‹_› (pollPhase_ne_refused _ _ _ _)
  · rintro ⟨rfl, hr⟩
    have ho : s.overrun cancelIn = true := decide_eq_true hr
    rw [runCycle, if_pos ho]

/-- A reset cycle is refused exactly when a byte is delivered (R170). -/
theorem resetCycle_refused_iff {s : State} {r : Refusal} :
    resetCycle s = .refused r ↔ r = .rxOverrun ∧ 0 < s.input.rxCount := by
  unfold resetCycle
  split
  · rename_i h0
    exact ⟨fun h => ⟨(Host.Outcome.refused.inj h).symm, h0⟩, fun ⟨hr, _⟩ => hr ▸ rfl⟩
  · rename_i h0
    exact ⟨fun h => (nomatch h), fun ⟨_, hpos⟩ => absurd hpos h0⟩

/-- Settles O34: a cycle's only refusal is the transport's overrun of its request. -/
theorem refusedExactlyOnOverrun : Obligations.RefusedExactlyOnOverrun := by
  intro i s r
  by_cases hi : i = .rst
  · subst hi
    rw [if_neg fun h => h.1 rfl, exec_rst]
    exact resetCycle_refused_iff
  · have hreq : s.request (s.cancelPin i)
        = if i ≠ .rst ∧ s.Reads i then min s.cfg.rxLanes (s.cfg.frameSize - s.fill) else 0 := by
      rw [State.request_eq]
      simp [hi]
    rw [exec_eq_runCycle hi, ← hreq]
    exact runCycle_refused_iff

/-- Phase P faults exactly in a poll that finds no room for a byte (R22). -/
theorem pollPhase_fault_iff {s : State} {cancelIn : Bool} {t : State} {r : Fault} :
    pollPhase s cancelIn t = .fault r ↔ r = .cursorOutOfRange ∧ s.faState = .active ∧
      s.cancelEff cancelIn = false ∧ s.cfg.frameSize ≤ s.fill := by
  constructor
  · intro h
    cases hf : s.faState with
    | idle =>
      rw [pollPhase_idle hf] at h
      cases h
    | active =>
      cases hc : s.cancelEff cancelIn with
      | true =>
        rw [pollPhase_cancelled hf hc] at h
        cases h
      | false =>
        by_cases hfill : s.cfg.frameSize ≤ s.fill
        · rw [pollPhase_brokenCursor hf hc hfill] at h
          cases h
          exact ⟨rfl, rfl, rfl, hfill⟩
        · rw [pollPhase_reads hf hc (Nat.lt_of_not_le hfill)] at h
          cases h
  · rintro ⟨rfl, hf, hc, hfill⟩
    exact pollPhase_brokenCursor hf hc hfill t

/-- A cycle with `rst = 0` faults exactly where it keeps the transport's contract and its Phase P faults. -/
theorem runCycle_fault_iff {cancelIn : Bool} {phaseO : State → State → State} {s : State} {r : Fault} :
    runCycle cancelIn phaseO s = .fault r ↔ s.input.rxCount ≤ s.request cancelIn ∧
      pollPhase s cancelIn (s.openCycle cancelIn) = .fault r := by
  constructor
  · intro h
    unfold runCycle at h
    split at h
    · cases h
    · rename_i ho
      refine ⟨State.overrun_eq_false.mp (by simpa using ho), ?_⟩
      split at h <;> cases h
      assumption
  · rintro ⟨hr, hp⟩
    simp [runCycle, State.overrun_eq_false.mpr hr, hp]

theorem resetCycle_ne_fault (s : State) (r : Fault) : resetCycle s ≠ .fault r := by
  unfold resetCycle
  split <;> simp

/-- The cycle reads exactly when the accumulator is active and nothing cancels its poll. -/
theorem State.reads_iff {s : State} {i : Instr} :
    s.Reads i ↔ s.faState = .active ∧ s.cancelEff (s.cancelPin i) = false := by
  simp [State.Reads, State.cancelEff]

/-- Settles O36: Phase P raises the one fault, and there the request is 0. -/
theorem faultExactlyOnBrokenCursor : Obligations.FaultExactlyOnBrokenCursor := by
  intro i s r
  by_cases hi : i = .rst
  · subst hi
    exact ⟨fun h => absurd h (resetCycle_ne_fault s r), fun ⟨_, hne, _⟩ => absurd rfl hne⟩
  · rw [exec_eq_runCycle hi, runCycle_fault_iff, pollPhase_fault_iff]
    constructor
    · rintro ⟨hr, rfl, hf, hc, hfill⟩
      have hrd : s.Reads i := State.reads_iff.mpr ⟨hf, hc⟩
      rw [hrd.request] at hr
      exact ⟨rfl, hi, hrd, hfill, by omega⟩
    · rintro ⟨rfl, -, hrd, hfill, h0⟩
      exact ⟨by omega, rfl, hrd.1, hrd.cancelEff, hfill⟩

end Sys2Proof.Machine
end

section
/-! PROOFS. What every step keeps (R26, R40), and the transitions it can make (R143, R148, R149, R163, R168, R174): one
look at the outcomes of a cycle each. -/

namespace Sys2Proof.Machine

/-! ## The invariant (R26, R40) -/

/-- With an empty cursor a block meets the invariant outside AWAITING. -/
theorem State.Inv.of_emptyCursor {t : State} (hfill : t.fill = 0) (hs : t.hsState ≠ .awaiting)
    (hbuf : t.BufferOk) : t.Inv :=
  ⟨hfill ▸ frameSize_pos t.cfg, fun _ => hfill, fun h => absurd h hs, hbuf⟩

/-- An active block with its cursor inside the frame meets the invariant whatever the session is. -/
theorem State.Inv.of_active {t : State} (hf : t.faState = .active) (hfill : t.fill < t.cfg.frameSize)
    (hbuf : t.BufferOk) : t.Inv :=
  ⟨hfill, fun h => by simp [hf] at h, fun _ => hf, hbuf⟩

/-- The poll's store keeps the buffer canonical and inside the frame (R40). -/
theorem State.BufferOk.write_chunk {s : State} (h : s.BufferOk)
    (hle : s.fill + s.input.rxCount ≤ s.cfg.frameSize) :
    (s.buf.write s.fill s.chunk).wf = true ∧ (s.buf.write s.fill s.chunk).within s.cfg.frameSize = true := by
  obtain ⟨hwf, hin⟩ := h
  exact ⟨Memory.wf_write hwf _ _, Memory.within_write hin _ (by rwa [State.chunk_length])⟩

/-- Every cycle keeps the invariant. -/
theorem exec_keeps_inv {i : Instr} {s t : State} (hinv : s.Inv) (h : exec i s = .next t) : t.Inv := by
  obtain ⟨hfill, hidle, hawait, hbuf⟩ := hinv
  cases exec_outcome h with
  | reset hi => exact .of_emptyCursor rfl (by simp) ⟨rfl, rfl⟩
  | idleKept hi hf a tx ha => exact ⟨hfill, hidle, hawait, hbuf⟩
  | recvStarted hi hf => exact .of_active rfl (frameSize_pos s.cfg) hbuf
  | hshakeStarted hi hf hs => exact .of_active rfl (frameSize_pos s.cfg) hbuf
  | cancelled hi hf hc t0 ht a ha =>
    have hne := endReceive_hsState_ne_awaiting ht rfl
    refine .of_emptyCursor (by simp [ht]) hne ?_
    simpa [State.BufferOk, ht] using hbuf
  | completed hi hrd hL t0 ht a ha =>
    have hne := endReceive_hsState_ne_awaiting ht rfl
    refine .of_emptyCursor (by simp [ht]) hne ?_
    simpa [State.BufferOk, ht] using hbuf.write_chunk hL.le
  | appended hi hrd hlt t0 ht a ha =>
    subst ht
    exact .of_active hrd.1 hlt (hbuf.write_chunk hlt.le)

/-- Settles O39: a step is the cycle of an operation, and every outcome of a cycle keeps the invariant. -/
theorem stepKeepsInvariant : Obligations.StepKeepsInvariant := by
  intro s t hinv h
  obtain ⟨i, -, hexec⟩ := step_cases h
  exact exec_keeps_inv hinv hexec

/-- Settles O38: the block is idle with an empty cursor, and no byte is listed. -/
theorem resetMeetsInvariant : Obligations.ResetMeetsInvariant :=
  .of_emptyCursor rfl (by simp [State.reset]) ⟨rfl, rfl⟩

/-! ## A step runs one cycle (R160) -/

/-- Settles O37: every outcome consumes one input and keeps the parameters. -/
theorem stepRunsDecodedCycle : Obligations.StepRunsDecodedCycle := by
  refine ⟨fun s i => step_of_decodeCycle, fun s inp rest => State.input_cons, fun s t i h => ?_⟩
  cases exec_outcome h with
  | reset hi => exact ⟨rfl, rfl⟩
  | idleKept hi hf a tx ha => exact ⟨rfl, rfl⟩
  | recvStarted hi hf => exact ⟨rfl, rfl⟩
  | hshakeStarted hi hf hs => exact ⟨rfl, rfl⟩
  | cancelled hi hf hc t0 ht a ha => simp [ht]
  | completed hi hrd hL t0 ht a ha => simp [ht]
  | appended hi hrd hlt t0 ht a ha => simp [ht]

/-! ## The session (R143, R148, R149) -/

/-- AWAITING means that a receive is in progress (I3). -/
theorem State.Inv.ne_awaiting_of_idle {s : State} (hinv : s.Inv) (hf : s.faState = .idle) : s.hsState ≠ .awaiting := by
  obtain ⟨-, -, hawait, -⟩ := hinv
  exact fun hs => by simp [hawait hs] at hf

/-- Settles O40: a receive lasts only through an append, which leaves the session alone, and begins only by an accepted
RECV, outside AWAITING by (I3), or an accepted HSHAKE. -/
theorem receiveKeepsItsOwner : Obligations.ReceiveKeepsItsOwner := by
  intro i s t hinv h hactive
  cases exec_outcome h with
  | reset hi => simp at hactive
  | idleKept hi hf a tx ha => simp [hf] at hactive
  | recvStarted hi hf =>
    exact ⟨fun _ => rfl, fun _ => .inl ⟨hi, hinv.ne_awaiting_of_idle hf⟩⟩
  | hshakeStarted hi hf hs => exact ⟨fun hbusy => by simp [hf] at hbusy, fun _ => .inr ⟨hi, rfl⟩⟩
  | cancelled hi hf hc t0 ht a ha => simp [ht] at hactive
  | completed hi hrd hL t0 ht a ha => simp [ht] at hactive
  | appended hi hrd hlt t0 ht a ha =>
    subst ht
    exact ⟨fun _ => rfl, fun hf => by simp [hrd.1] at hf⟩

/-- Settles O41: outside the reset cycle the session moves only by an accepted HSHAKE and by the end of its receive. -/
theorem handshakeTransitions : Obligations.HandshakeTransitions := by
  intro i s t hinv h
  cases exec_outcome h with
  | reset hi => exact .inl ⟨hi, rfl⟩
  | idleKept hi hf a tx ha => exact .inr (.inl ⟨hi, rfl, fun hs => absurd hs (hinv.ne_awaiting_of_idle hf)⟩)
  | recvStarted hi hf =>
    exact .inr (.inl ⟨by simp [hi], rfl, fun hs => absurd hs (hinv.ne_awaiting_of_idle hf)⟩)
  | hshakeStarted hi hf hs =>
    have hfrom : s.hsState = .idle ∨ s.hsState = .failed := by
      have hne := hinv.ne_awaiting_of_idle hf
      cases hc : s.hsState <;> simp_all
    exact .inr (.inr (.inl ⟨hi, hf, hfrom, rfl, rfl, rfl⟩))
  | cancelled hi hf hc t0 ht a ha =>
    exact .inr ((endReceive_session ht rfl).imp (fun ⟨hs, hsame⟩ => ⟨hi, hsame, fun hw => absurd hw hs⟩)
      fun hends => .inr (hends.imp (⟨hi, ·⟩) (⟨hi, ·⟩)))
  | completed hi hrd hL t0 ht a ha =>
    exact .inr ((endReceive_session ht rfl).imp (fun ⟨hs, hsame⟩ => ⟨hi, hsame, fun hw => absurd hw hs⟩)
      fun hends => .inr (hends.imp (⟨hi, ·⟩) (⟨hi, ·⟩)))
  | appended hi hrd hlt t0 ht a ha =>
    subst ht
    exact .inr (.inl ⟨hi, rfl, fun _ => ⟨hrd.1, rfl⟩⟩)

/-- Only a value of the port has a step (R60). -/
theorem wordOk_of_step {s t : State} (h : step s = .next t) : s.WordOk := by
  obtain ⟨i, hdec, -⟩ := step_cases h
  by_contra hwide
  have herr : decode s.cfg s.input.cmdw = .error .wordTooWide := by rw [decode_eq, if_pos (Nat.le_of_not_lt hwide)]
  rw [decodeCycle, herr] at hdec
  cases hdec

/-- Settles O46: outside AWAITING the end of a receive leaves the session, and an accepted HSHAKE is not possible in
ESTABLISHED. -/
theorem sessionStaysOpen : Obligations.SessionStaysOpen := by
  intro s t hopen h hrst
  obtain ⟨i, hi, -, hstep⟩ := step_eq_exec (wordOk_of_step h) hrst
  have hne : s.hsState ≠ .awaiting := by simp [hopen]
  cases exec_outcome (hstep ▸ h) with
  | reset hi' => exact absurd hi' hi
  | idleKept hi hf a tx ha => exact hopen
  | recvStarted hi hf => exact hopen
  | hshakeStarted hi hf hs => exact absurd hopen hs
  | cancelled hi hf hc t0 ht a ha =>
    obtain ⟨hsame, -⟩ := endReceive_recvDone hne _ _
    exact (congrArg State.hsState ht).trans (hsame.trans hopen)
  | completed hi hrd hL t0 ht a ha =>
    obtain ⟨hsame, -⟩ := endReceive_recvDone hne _ _
    exact (congrArg State.hsState ht).trans (hsame.trans hopen)
  | appended hi hrd hlt t0 ht a ha =>
    subst ht
    exact hopen

/-! ## The accumulator (R31, R98, R174) -/

/-- Settles O42: each outcome is one of the listed transitions, with its cursor. -/
theorem accumulatorTransitions : Obligations.AccumulatorTransitions := by
  intro i s t hinv h
  obtain ⟨-, hidle, -, -⟩ := hinv
  cases exec_outcome h with
  | reset hi => exact .inl ⟨hi, rfl, rfl⟩
  | idleKept hi hf a tx ha => exact .inr (.inr (.inl ⟨hi, hf, hf, hidle hf, ha⟩))
  | recvStarted hi hf => exact .inr (.inl ⟨by simp [hi], hf, rfl, rfl, .inl hi, rfl⟩)
  | hshakeStarted hi hf hs => exact .inr (.inl ⟨by simp [hi], hf, rfl, rfl, .inr hi, rfl⟩)
  | cancelled hi hf hc t0 ht a ha =>
    exact .inr (.inr (.inr (.inl ⟨hi, hf, by simp [ht], by simp [ht], .inl hc⟩)))
  | completed hi hrd hL t0 ht a ha =>
    exact .inr (.inr (.inr (.inl ⟨hi, hrd.1, by simp [ht], by simp [ht], .inr hL⟩)))
  | appended hi hrd hlt t0 ht a ha =>
    subst ht
    exact .inr (.inr (.inr (.inr ⟨hi, hrd, hlt, hrd.1, rfl⟩)))

/-- Settles O47: only the two ends of a receive drive the completion channel. -/
theorem noEarlyCompletion : Obligations.NoEarlyCompletion := by
  intro i s t h hcpl
  cases exec_outcome h with
  | reset hi => exact absurd rfl hcpl
  | idleKept hi hf a tx ha => exact absurd rfl hcpl
  | recvStarted hi hf => exact absurd rfl hcpl
  | hshakeStarted hi hf hs => exact absurd rfl hcpl
  | cancelled hi hf hc t0 ht a ha => exact ⟨hf, by simp [ht], .inl hc⟩
  | completed hi hrd hL t0 ht a ha => exact ⟨hrd.1, by simp [ht], .inr hL⟩
  | appended hi hrd hlt t0 ht a ha =>
    subst ht
    exact absurd rfl hcpl

/-! ## The channels of one cycle (R68, R163, R168, R169) -/

/-- Settles O43: the outcomes that transmit are idle, the outcomes that complete are busy, and beside a completion
stands at most a rejecting ack. -/
theorem phasesDoNotInterfere : Obligations.PhasesDoNotInterfere := by
  intro i s t h
  cases exec_outcome h with
  | reset hi => simp
  | idleKept hi hf a tx ha => simp [hf]
  | recvStarted hi hf => simp
  | hshakeStarted hi hf hs => simp [hf]
  | cancelled hi hf hc t0 ht a ha => simp [ht, hf, ha]
  | completed hi hrd hL t0 ht a ha => simp [ht, hrd.1, ha]
  | appended hi hrd hlt t0 ht a ha => simp [ht]

/-- Phase P drives no ack. -/
theorem pollPhase_ack {s : State} {cancelIn : Bool} {t t' : State} (h : pollPhase s cancelIn t = .next t') :
    t'.out.ack = t.out.ack := by
  rcases pollPhase_cases h with ⟨-, rfl⟩ | ⟨-, -, rfl⟩ | ⟨-, -, -, rfl⟩
  · rfl
  · obtain ⟨hack, -⟩ := endReceive_outputs s .cancelled t
    exact hack
  · obtain ⟨hack, -⟩ := append_outputs s s.chunk t
    exact hack

/-- The ack of a cycle with `rst = 0` is the one its op phase drives on a channel with none. -/
theorem exec_ack {i : Instr} (hi : i ≠ .rst) {s t : State} (h : exec i s = .next t) :
    ∃ t0 : State, t0.out.ack = none ∧ t.out.ack = (opPhase i s t0).out.ack := by
  obtain ⟨-, t0, hp, rfl⟩ := exec_cases hi h
  exact ⟨t0, pollPhase_ack hp, rfl⟩

/-- An op of the three families acks ERR_BUSY while busy, and what its body acks while idle (R163, R167). -/
theorem unlessBusy_ack {body : State → State → State} {s t : State} {a : Option AckCode}
    (hbody : s.faState = .idle → (unlessBusy body s t).out.ack = a) :
    (unlessBusy body s t).out.ack = if s.faState = .active then some .errBusy else a := by
  cases hf : s.faState with
  | idle => simpa using hbody hf
  | active => simp [unlessBusy_active hf]

/-- Settles O44: the op phase alone drives the ack: none for a pin or NOP, ERR_ILLEGAL for a reserved op, and for the
three families ERR_BUSY before the op's own check. -/
theorem ackByPrecedence : Obligations.AckByPrecedence := by
  intro i s t h
  by_cases hi : i = .rst
  · subst hi
    obtain ⟨-, rfl⟩ := resetCycle_cases (exec_rst s ▸ h)
    rfl
  obtain ⟨t0, hnone, hack⟩ := exec_ack hi h
  rw [hack]
  cases i with
  | rst => exact absurd rfl hi
  | nop => exact hnone
  | cancel => exact hnone
  | reserved code => rfl
  | recv => exact unlessBusy_ack fun hf => congrArg (·.out.ack) (opPhase_recv_idle hf t0)
  | send ptype cmd nparams params data =>
    refine unlessBusy_ack fun hf => ?_
    split
    · exact congrArg (·.out.ack) (opPhase_send_of_lt hf ptype cmd params data ‹_› t0)
    · exact congrArg (·.out.ack) (opPhase_send_of_le hf ptype cmd params data (Nat.le_of_not_lt ‹_›) t0)
  | hshake =>
    refine unlessBusy_ack fun hf => ?_
    split
    · exact congrArg (·.out.ack) (opPhase_hshake_established hf ‹_› t0)
    · exact congrArg (·.out.ack) (opPhase_hshake_starts hf ‹_› t0)

end Sys2Proof.Machine
end

section
/-! PROOFS. The one store of the block (R23, R40, R42, R93, R94, R175): what a poll puts into the frame buffer, and
which bytes a cycle can see of it. -/

namespace Sys2Proof.Machine

/-! ## A poll's store (R42, R93) -/

/-- The stored chunk reads back at the cursor, lane by lane. -/
theorem get_write_chunk_at {s : State} (hwf : s.buf.wf = true) {j : Nat} (hj : j < s.input.rxCount) :
    (s.buf.write s.fill s.chunk).get (s.fill + j) = s.input.rxBytes.getD j 0 := by
  rw [Memory.get_write hwf, State.chunk_length, if_pos (by omega), Nat.add_sub_cancel_left, State.chunk_getD s hj]

/-- Every byte outside the chunk reads as before. -/
theorem get_write_chunk_outside {s : State} (hwf : s.buf.wf = true) {a : Nat}
    (ha : ¬ (s.fill ≤ a ∧ a < s.fill + s.input.rxCount)) :
    (s.buf.write s.fill s.chunk).get a = s.buf.get a := by
  rw [Memory.get_write hwf, State.chunk_length, if_neg ha]

/-- The busy cycle whose chunk does not fill the frame: the chunk is stored, with at most an ack beside it. -/
theorem exec_appends {i : Instr} (hi : i ≠ .rst) {s : State} (hrd : s.Reads i)
    (hr : s.input.rxCount ≤ min s.cfg.rxLanes (s.cfg.frameSize - s.fill))
    (hlt : s.fill + s.input.rxCount < s.cfg.frameSize) :
    ∃ a, exec i s = .next { ((s.openCycle (s.cancelPin i)).setBuf (s.buf.write s.fill s.chunk)).setFill
        (s.fill + s.input.rxCount) with
      out := { (s.openCycle (s.cancelPin i)).out with ack := a } } := by
  have hpoll := pollPhase_reads hrd.1 hrd.cancelEff (by omega) (s.openCycle (s.cancelPin i))
  rw [append_partial (by rw [State.chunk_length]; omega), State.chunk_length] at hpoll
  exact exec_busy_of_poll hi hrd.1 (hrd.request ▸ hr) hpoll

/-- Settles O31: the append writes the chunk and the cursor over the opening of the cycle. -/
theorem pollAppends : Obligations.PollAppends := by
  intro i s hi hinv hrd hr hlt
  obtain ⟨-, -, -, hwf, -⟩ := hinv
  obtain ⟨a, hexec⟩ := exec_appends hi hrd hr hlt
  exact ⟨_, hexec, hrd.1, rfl, rfl, hrd.cancelEff, ⟨rfl, rfl, rfl⟩, rfl, rfl, hrd.request,
    fun j hj => get_write_chunk_at hwf hj, fun b hb => get_write_chunk_outside hwf (by omega)⟩

/-- Settles O32: outside AWAITING the poll that fills the frame ends the receive as a RECV_DONE with its verdict. -/
theorem pollCompletesFrame : Obligations.PollCompletesFrame := by
  intro i s hi hinv hrd hs hr hL
  obtain ⟨hfill, -, -, hwf, -⟩ := hinv
  obtain ⟨t0, a, rfl, hexec⟩ := exec_completes hi hrd hfill hr hL
  obtain ⟨hfa, hcursor, hbuf, hq, hcfg, hstim, hcycle⟩ := endReceive_fields s
    (deserialize s.cfg s.frameAfterAppend) ((s.openCycle (s.cancelPin i)).setBuf (s.buf.write s.fill s.chunk))
  obtain ⟨-, htx, hmax, -⟩ := endReceive_outputs s
    (deserialize s.cfg s.frameAfterAppend) ((s.openCycle (s.cancelPin i)).setBuf (s.buf.write s.fill s.chunk))
  obtain ⟨hsame, hcpl⟩ := endReceive_recvDone hs
    (deserialize s.cfg s.frameAfterAppend) ((s.openCycle (s.cancelPin i)).setBuf (s.buf.write s.fill s.chunk))
  exact ⟨_, hexec, hfa, hcursor, hsame, hq.trans hrd.cancelEff, ⟨hcfg, hstim, hcycle⟩, htx, hmax.trans hrd.request,
    hcpl, fun k hk => hbuf ▸ get_write_chunk hwf hL hk⟩

/-- Settles O48: the two outcomes of a poll that reads store the chunk, and no other outcome but reset stores. -/
theorem onlyThePollStores : Obligations.OnlyThePollStores := by
  intro i s t hi hwf h b hb
  have hstored : s.Reads i → (s.buf.write s.fill s.chunk).get b = s.buf.get b :=
    fun hrd => get_write_chunk_outside hwf fun hin => hb ⟨hrd, hin⟩
  cases exec_outcome h with
  | reset hi' => exact absurd hi' hi
  | idleKept hi hf a tx ha => rfl
  | recvStarted hi hf => rfl
  | hshakeStarted hi hf hs => rfl
  | cancelled hi hf hc t0 ht a ha => simp [ht]
  | completed hi hrd hL t0 ht a ha => simpa [ht] using hstored hrd
  | appended hi hrd hlt t0 ht a ha => simpa [ht] using hstored hrd

/-! ## The bytes a receive has taken (R23, R42) -/

/-- A receive that begins has taken no byte. -/
theorem State.holdsTaken_nil {t : State} (hfill : t.fill = 0) : t.HoldsTaken [] :=
  ⟨hfill, fun k hk => absurd hk (Nat.not_lt_zero k)⟩

/-- The store appends the received bytes to those below the cursor. -/
theorem State.HoldsTaken.write_chunk {s t : State} {taken : List Byte} (h : s.HoldsTaken taken)
    (hwf : s.buf.wf = true) (hfill : t.fill = s.fill + s.input.rxCount)
    (hbuf : t.buf = s.buf.write s.fill s.chunk) : t.HoldsTaken (taken ++ received s.input) := by
  obtain ⟨hlen, hbytes⟩ := h
  have htotal : (taken ++ received s.input).length = s.fill + s.input.rxCount := by
    rw [List.length_append, received_length, hlen]
  refine ⟨hfill.trans htotal.symm, fun k hk => ?_⟩
  rw [hbuf, Memory.get_write hwf, State.chunk_length]
  by_cases hlow : k < taken.length
  · rw [if_neg (by omega), hbytes k hlow, List.getD_append _ _ _ _ hlow]
  · rw [if_pos (by omega), List.getD_append_right _ _ _ _ (by omega), hlen, State.chunk]

/-- Settles O51: a receive is in progress after a cycle only where it began, with an empty cursor, or was appended
to. -/
theorem bufferHoldsTakenBytes : Obligations.BufferHoldsTakenBytes := by
  intro i s t taken hinv htaken h hactive
  obtain ⟨-, -, -, hwf, -⟩ := hinv
  cases exec_outcome h with
  | reset hi => simp at hactive
  | idleKept hi hf a tx ha => simp [hf] at hactive
  | recvStarted hi hf =>
    rw [if_neg (by simp [hf])]
    exact State.holdsTaken_nil rfl
  | hshakeStarted hi hf hs =>
    rw [if_neg (by simp [hf])]
    exact State.holdsTaken_nil rfl
  | cancelled hi hf hc t0 ht a ha => simp [ht] at hactive
  | completed hi hrd hL t0 ht a ha => simp [ht] at hactive
  | appended hi hrd hlt t0 ht a ha =>
    rw [if_pos hrd.1]
    subst ht
    exact htaken.write_chunk hwf rfl rfl

end Sys2Proof.Machine
end

section
/-! PROOFS. What a cycle cannot see (R23, R66): both phases read of the start state little but its session, they commute
with a replacement of the buffer, and a cycle reads of its received lanes only the chunk. -/

namespace Sys2Proof.Machine

/-! ## What the phases read of the start state -/

/-- Busy or not, an op of the three families reads of the start state the accumulator and what its body reads. -/
theorem unlessBusy_congr {body : State → State → State} {s s' t : State} (hfa : s'.faState = s.faState)
    (hbody : body s' t = body s t) : unlessBusy body s' t = unlessBusy body s t := by
  rw [unlessBusy, unlessBusy, State.busy, State.busy, hfa, hbody]

/-- The op phase reads of the start state the accumulator, the session and the parameters. -/
theorem opPhase_congr {s s' : State} (hfa : s'.faState = s.faState) (hhs : s'.hsState = s.hsState)
    (hcfg : s'.cfg = s.cfg) (i : Instr) (t : State) : opPhase i s' t = opPhase i s t := by
  cases i with
  | nop => rfl
  | recv => exact unlessBusy_congr hfa rfl
  | send ptype cmd nparams params data => exact unlessBusy_congr hfa (by rw [sendBody, sendBody, hcfg])
  | hshake => exact unlessBusy_congr hfa (by rw [hshakeBody, hshakeBody, hhs, hcfg])
  | reserved code => rfl
  | rst => rfl
  | cancel => rfl

/-- The end of a receive reads of the start state the session and the parameters. -/
theorem endReceive_congr {s s' : State} (hhs : s'.hsState = s.hsState) (hcfg : s'.cfg = s.cfg) (r : RxResult)
    (t : State) : endReceive s' r t = endReceive s r t := by
  simp only [endReceive, finish, hhs, hcfg]

/-! ## Lanes past `rx_count` (R66) -/

/-- Phase P sees its inputs through the pin and the chunk. -/
theorem pollPhase_stimulus {s : State} {stim : List CycleIn}
    (hchunk : State.chunk { s with stimulus := stim } = s.chunk) (cancelIn : Bool) (t : State) :
    pollPhase { s with stimulus := stim } cancelIn t = pollPhase s cancelIn t := by
  rw [pollPhase, pollPhase, hchunk]
  rfl

/-- A cycle sees its inputs through the count, the pin and the chunk, and keeps those of the cycles after it. -/
theorem exec_stimulus {s : State} {stim : List CycleIn} (htail : stim.tail = s.stimulus.tail)
    (hcount : (State.input { s with stimulus := stim }).rxCount = s.input.rxCount)
    (hpin : (State.input { s with stimulus := stim }).cancelIn = s.input.cancelIn)
    (hchunk : State.chunk { s with stimulus := stim } = s.chunk) (i : Instr) :
    exec i { s with stimulus := stim } = exec i s := by
  have hbegin : State.beginCycle { s with stimulus := stim } = s.beginCycle := by
    rw [State.beginCycle, State.beginCycle, htail]
    rfl
  by_cases hi : i = .rst
  · rw [hi, exec_rst, exec_rst, resetCycle, resetCycle, hcount, hbegin]
  · have hcancelPin : State.cancelPin { s with stimulus := stim } i = s.cancelPin i := by
      rw [State.cancelPin, State.cancelPin, hpin]
    have hopen : ∀ p, State.openCycle { s with stimulus := stim } p = s.openCycle p := fun p => by
      rw [State.openCycle, State.openCycle, hbegin]
      rfl
    have hop : opPhase i { s with stimulus := stim } = opPhase i s :=
      funext fun t => opPhase_congr (by rfl) (by rfl) (by rfl) i t
    rw [exec_eq_runCycle hi, exec_eq_runCycle hi, hcancelPin, runCycle, runCycle, State.overrun, State.overrun, hcount,
      hopen, pollPhase_stimulus hchunk, hop]
    rfl

/-- The received bytes are those lanes below the count. -/
theorem received_congr {inp inp' : CycleIn} (hcount : inp'.rxCount = inp.rxCount)
    (hlanes : ∀ j, j < inp.rxCount → inp'.rxBytes.getD j 0 = inp.rxBytes.getD j 0) : received inp' = received inp := by
  rw [received, received, hcount]
  exact List.map_congr_left fun j hj => hlanes j (List.mem_range.mp hj)

/-- A number that is no value of the port has no step (R60). -/
theorem step_of_decodeCycle_error {s : State} (h : decodeCycle s.cfg s.input = .error .wordTooWide) :
    step s = .refused .wordTooWide := by
  rw [step, h]

/-- Settles O49: the two cycles have the same operation, and it sees the same chunk. -/
theorem lanesPastCountIgnored : Obligations.LanesPastCountIgnored := by
  intro s inp bytes rest hstim hlanes
  have hinp : s.input = inp := State.input_cons hstim
  have hexec := exec_stimulus (s := s) (stim := { inp with rxBytes := bytes } :: rest) (by rw [hstim]; rfl)
    (by rw [hinp]; rfl) (by rw [hinp]; rfl)
    (by rw [State.chunk, State.chunk, hinp]; exact received_congr rfl fun j hj => (hlanes j hj).symm)
  have hdec : decodeCycle s.cfg { inp with rxBytes := bytes } = decodeCycle s.cfg s.input := hinp ▸ rfl
  cases hd : decodeCycle s.cfg s.input with
  | ok i => exact (step_of_decodeCycle (hdec.trans hd)).trans ((hexec i).trans (step_of_decodeCycle hd).symm)
  | error e =>
    cases e
    exact (step_of_decodeCycle_error (hdec.trans hd)).trans (step_of_decodeCycle_error hd).symm

/-! ## Bytes at and above the cursor (R23) -/

@[simp] theorem State.setBuf_setBuf (t : State) (m m' : Memory) : (t.setBuf m).setBuf m' = t.setBuf m' := rfl

/-- The op phase carries the buffer along. -/
theorem opPhase_setBuf (i : Instr) (s t : State) (m : Memory) :
    opPhase i s (t.setBuf m) = (opPhase i s t).setBuf m := by
  cases i with
  | nop => rfl
  | recv =>
    simp only [opPhase, unlessBusy]
    split <;> rfl
  | send ptype cmd nparams params data =>
    simp only [opPhase, unlessBusy, sendBody]
    split
    · rfl
    · split <;> rfl
  | hshake =>
    simp only [opPhase, unlessBusy, hshakeBody]
    split
    · rfl
    · split <;> rfl
  | reserved code => rfl
  | rst => rfl
  | cancel => rfl

/-- The end of a receive carries the buffer along. -/
theorem endReceive_setBuf (s : State) (r : RxResult) (t : State) (m : Memory) :
    endReceive s r (t.setBuf m) = (endReceive s r t).setBuf m := by
  simp only [endReceive, finish]
  split
  · cases r with
    | ok pkt =>
      simp only [hsFinish]
      split
      · rfl
      · split <;> rfl
    | badPacket => rfl
    | badChecksum => rfl
    | cancelled => rfl
  · rfl

/-- The op phase moves the cursor only down, to an empty one. -/
theorem opPhase_fill_le (i : Instr) (s t : State) : (opPhase i s t).fill ≤ t.fill := by
  cases i with
  | recv =>
    simp only [opPhase, unlessBusy]
    split <;> simp [recvBody]
  | hshake =>
    simp only [opPhase, unlessBusy, hshakeBody]
    split
    · simp
    · split <;> simp
  | send ptype cmd nparams params data =>
    simp only [opPhase, unlessBusy, sendBody]
    split
    · simp
    · split <;> simp
  | reserved code => exact le_rfl
  | nop => exact le_rfl
  | rst => exact le_rfl
  | cancel => exact le_rfl

/-- Two buffers read the same below `n`. -/
def Memory.AgreeBelow (n : Nat) (m m' : Memory) : Prop := ∀ a, a < n → m'.get a = m.get a

/-- Writing the same bytes at the cursor keeps the agreement, up to the new cursor. -/
theorem Memory.AgreeBelow.write {n : Nat} {m m' : Memory} (h : Memory.AgreeBelow n m m') (hwf : m.wf = true)
    (hwf' : m'.wf = true) (bs : List Byte) : Memory.AgreeBelow (n + bs.length) (m.write n bs) (m'.write n bs) := by
  intro a ha
  rw [Memory.get_write hwf, Memory.get_write hwf']
  split
  · rfl
  · exact h a (by omega)

/-- An ended receive leaves no byte below its cursor. -/
theorem endReceive_agreeBelow {s : State} {r : RxResult} {t : State} {m m' : Memory} :
    Memory.AgreeBelow (endReceive s r t).fill m m' := by
  rw [endReceive_fill]
  exact fun a ha => absurd ha (Nat.not_lt_zero a)

/-- The end of a receive with another buffer, in the start state as well. -/
theorem endReceive_setBuf_both (s : State) (r : RxResult) (t : State) (m m' : Memory) :
    endReceive (s.setBuf m) r (t.setBuf m') = (endReceive s r t).setBuf m' :=
  (endReceive_congr (s := s) rfl rfl r _).trans (endReceive_setBuf s r t m')

/-- The append on a buffer that agrees below the cursor: the same state, up to a buffer that agrees again. -/
theorem append_agree {s : State} {m : Memory} (hwf : s.buf.wf = true) (hwf' : Memory.wf m = true)
    (hagree : Memory.AgreeBelow s.fill s.buf m) (chunk : List Byte) (t : State) :
    append (s.setBuf m) chunk (t.setBuf m) = (append s chunk t).setBuf (Memory.write m s.fill chunk) ∧
      Memory.AgreeBelow (append s chunk t).fill (s.buf.write s.fill chunk) (Memory.write m s.fill chunk) := by
  by_cases hL : s.fill + chunk.length = s.cfg.frameSize
  · have hread : Memory.read m 0 s.fill = s.buf.read 0 s.fill :=
      Memory.read_congr fun k _ hk => hagree k (by omega)
    rw [append_complete hL, append_complete (s := s.setBuf m) hL]
    refine ⟨?_, endReceive_agreeBelow⟩
    rw [endReceive_setBuf_both, State.setBuf_buf, State.setBuf_fill, State.setBuf_cfg, hread, endReceive_setBuf,
      endReceive_setBuf, State.setBuf_setBuf, State.setBuf_setBuf]
  · rw [append_partial hL, append_partial (s := s.setBuf m) hL]
    exact ⟨rfl, hagree.write hwf hwf' chunk⟩

/-- Phase P on a buffer that agrees below the cursor: the same next state, up to a buffer that agrees again. -/
theorem pollPhase_agree {s : State} {m : Memory} (hwf : s.buf.wf = true) (hwf' : Memory.wf m = true)
    (hagree : Memory.AgreeBelow s.fill s.buf m) {p : Bool} {t : State}
    (h : pollPhase s p (s.openCycle p) = .next t) :
    ∃ m', pollPhase (s.setBuf m) p ((s.openCycle p).setBuf m) = .next (t.setBuf m') ∧
      Memory.AgreeBelow t.fill t.buf m' := by
  rcases pollPhase_cases h with ⟨hf, rfl⟩ | ⟨hf, hc, rfl⟩ | ⟨hf, hc, hlt, rfl⟩
  · exact ⟨m, pollPhase_idle (s := s.setBuf m) hf p _, hagree⟩
  · refine ⟨m, ?_, endReceive_agreeBelow⟩
    rw [pollPhase_cancelled (s := s.setBuf m) hf hc, endReceive_setBuf_both]
  · obtain ⟨happend, hagree'⟩ := append_agree hwf hwf' hagree s.chunk (s.openCycle p)
    refine ⟨Memory.write m s.fill s.chunk, ?_, by rwa [append_buf]⟩
    rw [← happend]
    exact pollPhase_reads (s := s.setBuf m) hf hc hlt _

/-- Settles O50: both phases carry a buffer that agrees below the cursor to one that agrees below the new cursor, and
the reset cycle leaves no cursor to agree below. -/
theorem staleBytesUnobservable : Obligations.StaleBytesUnobservable := by
  intro s t m hwf hwf' hagree h
  obtain ⟨i, hdec, hexec⟩ := step_cases h
  have hstep : step (s.setBuf m) = exec i (s.setBuf m) := step_of_decodeCycle hdec
  by_cases hi : i = .rst
  · subst hi
    obtain ⟨h0, rfl⟩ := resetCycle_cases (exec_rst s ▸ hexec)
    exact ⟨_, hstep.trans (exec_rst_next h0), rfl, fun a ha => absurd ha (Nat.not_lt_zero a)⟩
  · obtain ⟨hr, t0, hp, rfl⟩ := exec_cases hi hexec
    obtain ⟨m', hp', hagree'⟩ := pollPhase_agree hwf hwf' hagree hp
    have hnext := exec_of_poll (s := s.setBuf m) hi hr hp'
    rw [opPhase_congr (s := s) (s' := s.setBuf m) rfl rfl rfl, opPhase_setBuf] at hnext
    refine ⟨_, hstep.trans hnext, rfl, fun a ha => ?_⟩
    obtain ⟨hbuf, -⟩ := opPhase_frame i s t0
    rw [hbuf, State.setBuf_buf]
    exact hagree' a (Nat.lt_of_lt_of_le ha (opPhase_fill_le i s t0))

end Sys2Proof.Machine
end

section
/-! PROOFS. Runs of several cycles: a receive waits for bytes (R95, R98), takes them in any chunks (R97), and ends at
its first poll once the block is cancelled (R206). -/

namespace Sys2Proof.Machine

/-! ## Waiting (R95, R98) -/

/-- The poll of a NOP cycle with no byte and no pin requests bytes and changes nothing of the block. -/
theorem step_waits {s : State} (hinv : s.Inv) (hf : s.faState = .active) (hq : s.cancelQ = false)
    {rest : List CycleIn} (hstim : s.stimulus = withStimulus s.cfg .nop [] false false :: rest) :
    ∃ t, step s = .next t ∧ s.SameBlock t ∧ t.AdvancesFrom s ∧ t.out.cpl = none := by
  obtain ⟨hfill, -, -, -⟩ := hinv
  have hinp := State.input_cons hstim
  have hchunk : s.chunk = [] := by rw [State.chunk, hinp, received_withStimulus]
  have h0 : s.input.rxCount = 0 := by rw [hinp]; rfl
  have hdec : decodeCycle s.cfg s.input = .ok .nop := by
    have hword : decode s.cfg s.input.cmdw = .ok .nop := by
      rw [hinp]
      exact decode_encode (i := .nop) rfl
    obtain ⟨-, hplain, -, -⟩ := pinsAndOpDecode s.cfg s.input .nop hword
    exact hplain (by rw [hinp]; rfl) (by rw [hinp]; rfl)
  have hrd : s.Reads .nop := ⟨hf, hq, by rw [State.cancelPin_nop, hinp]; rfl⟩
  obtain ⟨a, hexec⟩ := exec_appends (by simp) hrd (by omega) (by omega)
  rw [hchunk, h0] at hexec
  exact ⟨_, (step_of_decodeCycle hdec).trans hexec, ⟨rfl, rfl, rfl, hrd.cancelEff.trans hq.symm, rfl⟩,
    ⟨rfl, rfl, rfl⟩, rfl⟩

/-- Settles O53: one waiting cycle keeps the block, and so do n of them. -/
theorem receiveWaitsForBytes : Obligations.ReceiveWaitsForBytes := by
  intro s n
  induction n generalizing s with
  | zero =>
    intro rest _ hf hq hstim
    exact ⟨s, rfl, hf, rfl, rfl, rfl, hq, hstim, fun h => absurd h (Nat.lt_irrefl 0)⟩
  | succ n ih =>
    intro rest hinv hf hq hstim
    obtain ⟨t, hstep, ⟨hfa, hfill, hbuf, hcq, hhs⟩, ⟨hcfg, htail, -⟩, hcpl⟩ := step_waits hinv hf hq hstim
    have hstim' : t.stimulus = List.replicate n (withStimulus t.cfg .nop [] false false) ++ rest := by
      rw [htail, hstim, hcfg]
      rfl
    obtain ⟨u, hrun, hfa', hfill', hbuf', hhs', hcq', hrest, hcpl'⟩ :=
      ih t rest (stepKeepsInvariant s t hinv hstep) (hfa.trans hf) (hcq.trans hq) hstim'
    refine ⟨u, (run_succ hstep n).trans hrun, hfa', hfill'.trans hfill, hbuf'.trans hbuf, hhs'.trans hhs, hcq', hrest,
      fun _ => ?_⟩
    cases n with
    | zero =>
      cases hrun
      exact hcpl
    | succ n => exact hcpl' (Nat.succ_pos n)

/-! ## Taking a stream in chunks (R97) -/

/-- An uncancelled receive that has taken the bytes `taken`. -/
def State.Receiving (s : State) (taken : List Byte) : Prop :=
  s.Inv ∧ s.faState = .active ∧ s.cancelQ = false ∧ s.HoldsTaken taken

/-- An input that neither resets nor cancels and keeps within RX_LANES. -/
def Feeds (c : Config) (inp : CycleIn) : Prop :=
  inp.rst = false ∧ inp.cancelIn = false ∧ inp.cmdw < 2 ^ c.cmdwBits ∧ inp.rxCount ≤ c.rxLanes

/-- The cycle of such an input is a poll that reads, within its request where the frame has room for the chunk. -/
theorem State.Receiving.reads {s : State} {taken : List Byte} (hrec : s.Receiving taken) {inp : CycleIn}
    {rest : List CycleIn} (hstim : s.stimulus = inp :: rest) (hfeeds : Feeds s.cfg inp)
    (hroom : (taken ++ received inp).length ≤ s.cfg.frameSize) :
    s.fill + s.input.rxCount = (taken ++ received inp).length ∧
      s.input.rxCount ≤ min s.cfg.rxLanes (s.cfg.frameSize - s.fill) ∧
      ∃ i, i ≠ .rst ∧ s.Reads i ∧ step s = exec i s := by
  obtain ⟨-, hf, hq, hlen, -⟩ := hrec
  have hinp := State.input_cons hstim
  obtain ⟨hrst, hpin, hword, hlanes⟩ := hinp.symm ▸ hfeeds
  rw [← hinp, List.length_append, received_length] at hroom ⊢
  obtain ⟨i, hi, hcancelPin, hstep⟩ := step_eq_exec hword hrst
  exact ⟨by omega, by omega, i, hi, ⟨hf, hq, hcancelPin.trans hpin⟩, hstep⟩

/-- A chunk that does not fill the frame is taken. -/
theorem step_takes {s : State} {taken : List Byte} (hrec : s.Receiving taken) {inp : CycleIn} {rest : List CycleIn}
    (hstim : s.stimulus = inp :: rest) (hfeeds : Feeds s.cfg inp)
    (hlt : (taken ++ received inp).length < s.cfg.frameSize) :
    ∃ t, step s = .next t ∧ t.Receiving (taken ++ received inp) ∧ t.hsState = s.hsState ∧ t.cfg = s.cfg ∧
      t.stimulus = rest ∧ t.out.cpl = none := by
  obtain ⟨hfill, hr, i, hi, hrd, hstep⟩ := hrec.reads hstim hfeeds hlt.le
  obtain ⟨hinv, -, -, htaken⟩ := hrec
  obtain ⟨t, hexec, hfa, -, hhs, hq, ⟨hcfg, htail, -⟩, hcpl, -⟩ := pollAppends i s hi hinv hrd hr (hfill ▸ hlt)
  have htaken' := bufferHoldsTakenBytes i s t taken hinv htaken hexec hfa
  rw [if_pos hrd.1, State.input_cons hstim] at htaken'
  exact ⟨t, hstep.trans hexec, ⟨exec_keeps_inv hinv hexec, hfa, hq, htaken'⟩, hhs, hcfg,
    by rw [htail, hstim, List.tail_cons], hcpl⟩

/-- The frame that the filling chunk completes is what was taken and the chunk. -/
theorem State.HoldsTaken.frameAfterAppend_eq {s : State} {taken : List Byte} (h : s.HoldsTaken taken)
    (hL : s.fill + s.input.rxCount = s.cfg.frameSize) : s.frameAfterAppend = taken ++ received s.input := by
  obtain ⟨hlen, hbytes⟩ := h
  have hread : s.buf.read 0 s.fill = taken := by
    refine eq_of_getD (z := 0) (Memory.read_length ..) hlen.symm fun k hk => ?_
    rw [← hbytes k (hlen ▸ hk)]
    simp [Memory.read, List.getD, hk]
  rw [← Machine.frameAfterAppend_eq hL, hread, State.chunk]

/-- The chunk that fills the frame ends the receive with the verdict of all the bytes taken. -/
theorem step_fills {s : State} {taken : List Byte} (hrec : s.Receiving taken) {inp : CycleIn} {rest : List CycleIn}
    (hstim : s.stimulus = inp :: rest) (hfeeds : Feeds s.cfg inp)
    (hL : (taken ++ received inp).length = s.cfg.frameSize) :
    ∃ t, step s = .next t ∧ t.faState = .idle ∧ t.fill = 0 ∧
      (s.hsState ≠ .awaiting → t.hsState = s.hsState ∧
        t.out.cpl = some (.recvDone (deserialize s.cfg (taken ++ received inp)))) ∧
      (s.hsState = .awaiting → t.EndsHandshake s.cfg (deserialize s.cfg (taken ++ received inp))) := by
  obtain ⟨hfill, hr, i, hi, hrd, hstep⟩ := hrec.reads hstim hfeeds hL.le
  obtain ⟨⟨hcursor, -⟩, -, -, htaken⟩ := hrec
  have hframe := htaken.frameAfterAppend_eq (hfill.trans hL)
  rw [State.input_cons hstim] at hframe
  obtain ⟨t0, a, rfl, hexec⟩ := exec_completes hi hrd hcursor hr (hfill.trans hL)
  rw [hframe] at hexec
  exact ⟨_, hstep.trans hexec, endReceive_faState .., endReceive_fill .., fun hs => endReceive_recvDone hs _ _,
    fun hs => endReceive_endsHandshake hs _ _⟩

/-- Any number of chunks that do not fill the frame are taken, one a cycle. -/
theorem run_takes {s : State} {taken : List Byte} {inputs rest : List CycleIn} (hrec : s.Receiving taken)
    (hstim : s.stimulus = inputs ++ rest) (hfeeds : ∀ inp ∈ inputs, Feeds s.cfg inp)
    (hlt : (taken ++ inputs.flatMap received).length < s.cfg.frameSize) :
    ∃ t : State, Host.Core.run Sys2Proof.core inputs.length s = .next t ∧
      t.Receiving (taken ++ inputs.flatMap received) ∧ t.hsState = s.hsState ∧ t.cfg = s.cfg ∧
      t.stimulus = rest ∧ (inputs ≠ [] → t.out.cpl = none) := by
  induction inputs generalizing s taken with
  | nil => exact ⟨s, rfl, by simpa using hrec, rfl, rfl, hstim, fun h => absurd rfl h⟩
  | cons inp inputs ih =>
    rw [List.flatMap_cons, ← List.append_assoc] at hlt ⊢
    obtain ⟨t, hstep, hrec', hhs, hcfg, hstim', hcpl⟩ := step_takes hrec hstim (hfeeds inp List.mem_cons_self)
      (by rw [List.length_append] at hlt; omega)
    obtain ⟨u, hrun, hrec'', hhs', hcfg', hrest, hcpl'⟩ := ih hrec' hstim'
      (fun inp' hmem => hcfg ▸ hfeeds inp' (List.mem_cons_of_mem inp hmem)) (hcfg ▸ hlt)
    refine ⟨u, (run_succ hstep _).trans hrun, hrec'', hhs'.trans hhs, hcfg'.trans hcfg, hrest, fun _ => ?_⟩
    cases inputs with
    | nil =>
      cases hrun
      exact hcpl
    | cons next inputs => exact hcpl' (by simp)

/-- A run of k + 1 cycles begins with a step. -/
theorem exists_step_of_run_succ {s u : State} {k : Nat} (h : Host.Core.run Sys2Proof.core (k + 1) s = .next u) :
    ∃ t, step s = .next t ∧ Host.Core.run Sys2Proof.core k t = .next u := by
  simp only [Host.Core.run] at h
  split at h
  · exact ⟨_, ‹_›, h⟩
  · cases h
  · cases h

/-- A run and then one step is a run of one cycle more. -/
theorem run_step {s t u : State} {k : Nat} (hrun : Host.Core.run Sys2Proof.core k s = .next t)
    (hstep : step t = .next u) : Host.Core.run Sys2Proof.core (k + 1) s = .next u := by
  induction k generalizing s with
  | zero =>
    cases hrun
    exact run_succ hstep 0
  | succ k ih =>
    obtain ⟨s', hfirst, hrun'⟩ := exists_step_of_run_succ hrun
    exact (run_succ hfirst _).trans (ih hrun')

/-- Chunks that fill the frame only with the last of them end the receive with the verdict of the whole stream. -/
theorem run_fills {s : State} {taken : List Byte} {inputs : List CycleIn} {last : CycleIn} {rest : List CycleIn}
    (hrec : s.Receiving taken) (hstim : s.stimulus = inputs ++ last :: rest)
    (hfeeds : ∀ inp ∈ inputs ++ [last], Feeds s.cfg inp)
    (hlt : (taken ++ inputs.flatMap received).length < s.cfg.frameSize)
    (hL : (taken ++ (inputs ++ [last]).flatMap received).length = s.cfg.frameSize) :
    ∃ t : State, Host.Core.run Sys2Proof.core (inputs ++ [last]).length s = .next t ∧ t.faState = .idle ∧ t.fill = 0 ∧
      (s.hsState ≠ .awaiting → t.hsState = s.hsState ∧
        t.out.cpl = some (.recvDone (deserialize s.cfg (taken ++ (inputs ++ [last]).flatMap received)))) ∧
      (s.hsState = .awaiting →
        t.EndsHandshake s.cfg (deserialize s.cfg (taken ++ (inputs ++ [last]).flatMap received))) := by
  have hstream : taken ++ (inputs ++ [last]).flatMap received = taken ++ inputs.flatMap received ++ received last := by
    simp
  rw [hstream] at hL ⊢
  obtain ⟨t, hrun, hrec', hhs, hcfg, hstim', -⟩ := run_takes hrec hstim
    (fun inp hmem => hfeeds inp (List.mem_append_left _ hmem)) hlt
  obtain ⟨u, hstep, hfa, hcursor, hends⟩ := step_fills hrec' hstim' (hcfg ▸ hfeeds last (by simp))
    (hL.trans (by rw [hcfg]))
  rw [hcfg, hhs] at hends
  rw [List.length_append]
  exact ⟨u, run_step hrun hstep, hfa, hcursor, hends⟩

/-- Settles O52: before the running total reaches L the chunks are taken, and the last one fills the frame. -/
theorem chunkingInvariance : Obligations.ChunkingInvariance := by
  intro s inputs rest hstim hf hfill hq hbuf hfeeds hbelow htotal
  have hrec : s.Receiving [] :=
    ⟨.of_active hf (hfill ▸ frameSize_pos s.cfg) hbuf, hf, hq, State.holdsTaken_nil hfill⟩
  refine ⟨fun k hpos hk => ?_, ?_⟩
  · have hlen : (inputs.take k).length = k := List.length_take_of_le hk.le
    obtain ⟨t, hrun, ⟨-, hfa, -, hcursor, -⟩, hhs, -, -, hcpl⟩ := run_takes (inputs := inputs.take k)
      (rest := inputs.drop k ++ rest) hrec (by rw [← List.append_assoc, List.take_append_drop, hstim])
      (fun inp hmem => hfeeds inp (List.mem_of_mem_take hmem)) (hbelow k hk)
    exact ⟨t, hlen ▸ hrun, hcpl (List.ne_nil_of_length_pos (by omega)), hfa, hcursor, hhs⟩
  · have hne : inputs ≠ [] := by
      rintro rfl
      exact absurd htotal (frameSize_pos s.cfg).ne
    obtain ⟨init, last, rfl⟩ := (List.eq_nil_or_concat' inputs).resolve_left hne
    have hinit := hbelow init.length (by simp)
    rw [List.take_left' rfl] at hinit
    exact run_fills hrec (by rw [hstim, List.append_assoc, List.singleton_append]) hfeeds hinit htotal

/-! ## The cancelled block (R206) -/

/-- A cycle with `rst = 0` ends the receive of an active, cancelled block, whatever op it presents. -/
theorem step_cancelled {s : State} {inp : CycleIn} {rest : List CycleIn} (hstim : s.stimulus = inp :: rest)
    (hrst : inp.rst = false) (h0 : inp.rxCount = 0) (hw : inp.cmdw < 2 ^ s.cfg.cmdwBits) (hf : s.faState = .active)
    (hq : s.cancelQ = true) :
    ∃ t, step s = .next t ∧ t.faState = .idle ∧ t.cancelQ = true ∧
      (s.hsState ≠ .awaiting → t.hsState = s.hsState ∧ t.out.cpl = some (.recvDone .cancelled)) ∧
      (s.hsState = .awaiting →
        t.hsState = .failed ∧ t.out.cpl = some (.hsDone .cancelled false .cancelled none)) := by
  obtain rfl := State.input_cons hstim
  obtain ⟨i, hi, -, hstep⟩ := step_eq_exec hw hrst
  obtain ⟨hends, -⟩ := cancelledPollEndsReceive i s hi hf (by rw [hq, Bool.true_or])
  obtain ⟨t, hexec, hfa, -, -, hcq, -, -, -, hdone, hfail⟩ := hends h0
  exact ⟨t, hstep.trans hexec, hfa, hcq, hdone, hfail⟩

/-- With `rst = 0` the word of an op other than NOP presents that op, whatever `cancel_in` is. -/
theorem step_of_encode {s : State} {inp : CycleIn} {rest : List CycleIn} (hstim : s.stimulus = inp :: rest)
    {i : Instr} (hwf : i.wellFormed s.cfg = true) (hop : i.presentedOp = i) (hnop : i ≠ .nop) (hrst : inp.rst = false)
    (hw : inp.cmdw = encode s.cfg i) : step s = exec i s := by
  obtain rfl := State.input_cons hstim
  have hdec : decode s.cfg s.input.cmdw = .ok i := by rw [hw, decode_encode hwf, hop]
  exact step_of_decodeCycle (by simp [decodeCycle, hdec, hrst, hnop])

/-- Settles O54: the accepting cycle leaves the block active with its flag set, and the next is a cancelled poll. -/
theorem cancelledBlockEndsEveryReceive : Obligations.CancelledBlockEndsEveryReceive := by
  intro s first second rest hf hq hstim hrst hrx hrst' hrx' hw'
  have h0 : s.input.rxCount = 0 := State.input_cons hstim ▸ hrx
  have hflag : (s.cancelQ || s.input.cancelIn) = true := by rw [hq, Bool.true_or]
  constructor
  · intro hword hs
    have hstep := step_of_encode (i := .recv) hstim rfl rfl (by simp) hrst hword
    obtain ⟨t, hexec, hfa, -, -, hhs, hcq, ⟨hcfg, htail, -⟩, hout⟩ := recvAccepted s hf h0
    obtain ⟨u, hstep', hfa', hcq', hdone, -⟩ := step_cancelled (htail.trans (by rw [hstim, List.tail_cons])) hrst' hrx'
      (hcfg ▸ hw') hfa (hcq.trans hflag)
    obtain ⟨hsame, hcpl⟩ := hdone (hhs ▸ hs)
    exact ⟨t, u, hstep.trans hexec, by rw [hout], hstep', hfa', hsame.trans hhs, hcq', hcpl⟩
  · intro hword hs
    have hstep := step_of_encode (i := .hshake) hstim rfl rfl (by simp) hrst hword
    obtain ⟨t, hexec, hhs, hfa, -, -, hcq, ⟨hcfg, htail, -⟩, hout⟩ := hshakeAccepted s hf h0 hs
    obtain ⟨u, hstep', hfa', hcq', -, hfail⟩ := step_cancelled (htail.trans (by rw [hstim, List.tail_cons])) hrst' hrx'
      (hcfg ▸ hw') hfa (hcq.trans hflag)
    obtain ⟨hfailed, hcpl⟩ := hfail hhs
    exact ⟨t, u, hstep.trans hexec, by rw [hout], by rw [hout], hstep', hfa', hfailed, hcq', hcpl⟩

end Sys2Proof.Machine
end
